-- ==== Sys2Proof/Word.lean ====
section
/-! DEFINITION. The bit widths of 00_scope.md R7: a byte and a character are 8 bits, a register 32, a host offset 18,
a symbol value 6, an accumulator 24. -/

namespace Sys2Proof

/-- A 32-bit register or a bus data word (R7, R34). -/
abbrev Word := BitVec 32

/-- A buffer byte or a character code (R7, R61). -/
abbrev Byte := BitVec 8

/-- A block-relative host offset, 0x00000 to 0x3FFFF (R7, R34). -/
abbrev Offset := BitVec 18

/-- A 6-bit symbol value (R7). -/
abbrev Sym := BitVec 6

/-- The encoder's and decoder's 24-bit accumulator (R7, R78, R91). -/
abbrev Acc := BitVec 24

end Sys2Proof
end

