-- ==== Sys2Proof/Config.lean ====
section
/-! DEFINITION. The parameters of 00_scope.md R6 and the free values of 93_implementation_defined.md section 2. A free value is
an uninterpreted constant: nothing can be proved of what it is, so a claim holds whatever it is. -/

namespace Sys2Proof

/-- The two operations the engine can run (R33). LAST_OP codes them 0 and 1 (R19). -/
inductive Op where
  | encode
  | decode
  deriving DecidableEq, Repr, Inhabited

/-- The two byte arrays, the SPACE of R10. -/
inductive Space where
  | inMem
  | outMem
  deriving DecidableEq, Repr, Inhabited

/-- The parameters IN_CAP and OUT_CAP (R6). `Config.wf` (WellFormed.lean) holds them to their constraints. -/
structure Config where
  inCap  : Nat
  outCap : Nat
  deriving DecidableEq, Repr

/-- The reference configuration of R6. -/
def Config.reference : Config := { inCap := 3072, outCap := 4096 }

/-- SRAM_INIT (R6, R115): the unspecified value a buffer byte holds after reset number `epoch`, stable until written.
FREE VALUE, log entry 4. -/
opaque Config.sramInit : (epoch : Nat) → Space → (index : Nat) → Byte

/-- The n-th choice between an old and a new OUT_MEM byte (R120, R121): true takes the new byte. FREE VALUE, log entry 7. -/
opaque Config.takesNew : (n : Nat) → Bool

/-- OP_L after the reset input (R33, R114): unspecified. FREE VALUE, log entry 5. -/
opaque Config.opAfterReset : (epoch : Nat) → Op

/-- N_L after the reset input (R33, R114): unspecified. FREE VALUE, log entry 5. -/
opaque Config.lenAfterReset : (epoch : Nat) → Nat

end Sys2Proof
end

