-- ==== Sys2Proof/Syntax.lean ====
section
/-! DEFINITION. The command set of 30_encoding.md R56: one constructor per row of spec/opcode_table.json. -/

namespace Sys2Proof

/-- A command. None has an operand, an immediate or a register field (R58). -/
inductive Instr where
  /-- NOP, word 0x00000000 (R74). -/
  | nop
  /-- ENCODE, word 0x00000001 (R87). -/
  | encode
  /-- DECODE, word 0x00000002 (R98). -/
  | decode
  /-- CLEAR, word 0x00000003 (R75). -/
  | clear
  deriving DecidableEq, Repr

end Sys2Proof
end

