-- ==== Sys2Proof/WellFormed.lean ====
section
/-! DEFINITION. What makes a configuration, a command word and a command well formed. -/

namespace Sys2Proof

/-- The constraints of R6 on the parameters. -/
def Config.wf (c : Config) : Bool :=
  c.inCap % 4 == 0 && decide (4 ≤ c.inCap) && decide (c.inCap ≤ 0x10000) &&
  c.outCap % 4 == 0 && decide (4 * ((c.inCap + 2) / 3) ≤ c.outCap) && decide (c.outCap ≤ 0x20000)

/-- A valid command word (R57): RSVD is 0 and OPCODE is at most 0x03. -/
def validCommand (w : Word) : Bool :=
  w.extractLsb' 8 24 == 0 && decide (w.extractLsb' 0 8 ≤ 3#8)

/-- Every command is well formed: it has no operand field to be out of range (R58). -/
def Instr.wf : Instr → Bool
  | .nop => true
  | .encode => true
  | .decode => true
  | .clear => true

end Sys2Proof
end

