-- ==== Sys2Proof/Decode.lean ====
section
/-! DEFINITION. Decoding of a command word (30_encoding.md R55 to R60), total on all 2^32 words, and the encoder. -/

namespace Sys2Proof

/-- Why a word is reserved (R57). -/
inductive ReservedWord where
  /-- RSVD, bits 31:8, is not 0. -/
  | rsvdNonzero
  /-- RSVD is 0 and OPCODE is one of 0x04 to 0xFF. -/
  | reservedOpcode
  deriving DecidableEq, Repr

/-- The OPCODE field, bits 7:0 (R55). -/
def opcodeField (w : Word) : BitVec 8 := w.extractLsb' 0 8

/-- The RSVD field, bits 31:8 (R55). -/
def rsvdField (w : Word) : BitVec 24 := w.extractLsb' 8 24

/-- The command a word stands for, or why it is reserved (R56, R57). -/
def decode (w : Word) : Except ReservedWord Instr :=
  if rsvdField w ≠ 0 then .error .rsvdNonzero
  else if opcodeField w = 0x00 then .ok .nop
  else if opcodeField w = 0x01 then .ok .encode
  else if opcodeField w = 0x02 then .ok .decode
  else if opcodeField w = 0x03 then .ok .clear
  else .error .reservedOpcode

/-- The opcode of a command (R56). -/
def opcodeOf : Instr → BitVec 8
  | .nop => 0x00
  | .encode => 0x01
  | .decode => 0x02
  | .clear => 0x03

/-- The command word of a command (R55, R56): RSVD 0 above the opcode. -/
def encode (i : Instr) : Word := (0#24 ++ opcodeOf i : BitVec 32)

/-- The command read from a word of `nbits` bits numbered as spec/opcode_table.json numbers them. There is one length, 32 bits
(R55, R60): bits above `nbits` are 0, and no command is longer than 32 bits. -/
def decodeTableWord (nbits w : Nat) : Option Instr :=
  if 32 < nbits then none
  else match decode (BitVec.ofNat 32 (w % 2 ^ nbits)) with
    | .ok i => some i
    | .error _ => none

end Sys2Proof
end

