-- ==== Sys2Proof/Machine/State.lean ====
section
/-! DEFINITION. The state of B64C (10_state.md) as plain data: the registers, the buffers, the engine's latches, the reset
input's level, and the model's own fields (what is still to come from outside, in which order, and the counters of free
values). -/

namespace Sys2Proof.Machine

/-- The values of STATUS.ERR_CODE that are ever produced (R19, R100); codes 4 to 15 never are. -/
inductive ErrCode where
  | none
  | invalidSymbol
  | badLength
  | badCommand
  deriving DecidableEq, Repr

/-- STATUS (R19). Bits 31:9 are reserved and hold nothing (R30). -/
structure Status where
  busy    : Bool
  done    : Bool
  err     : Bool
  haz     : Bool
  errCode : ErrCode
  lastOp  : Op
  deriving DecidableEq, Repr

/-- RESULT_INFO (R28). The other bits are reserved and hold nothing (R30). -/
structure ResultInfo where
  encPad   : BitVec 2
  decTail  : BitVec 2
  padFound : Bool
  deriving DecidableEq, Repr

/-- IRQ_EN (R29). Bits 31:3 are reserved and hold nothing (R30). -/
structure IrqEn where
  doneIe : Bool
  errIe  : Bool
  hazIe  : Bool
  deriving DecidableEq, Repr

/-- The eleven block registers of R14. -/
inductive Reg where
  | id
  | inCap
  | outCap
  | cmd
  | status
  | inLen
  | outLen
  | errPos
  | consumed
  | resultInfo
  | irqEn
  deriving DecidableEq, Repr

/-- Transaction sizes: 1, 2 or 4 bytes (R34). -/
inductive Size where
  | one
  | two
  | four
  deriving DecidableEq, Repr

/-- A host transaction (R34). Of a write of n bytes only the low 8n bits of `wdata` are used. -/
inductive Txn where
  | read  (off : Offset) (size : Size)
  | write (off : Offset) (size : Size) (wdata : Word)
  deriving DecidableEq, Repr

/-- The two responses of the port (R34). -/
inductive Resp where
  | okay
  | slverr
  deriving DecidableEq, Repr

/-- The response to a transaction (R34). Only a READ has rdata; log entry 8. -/
structure Response where
  resp  : Resp
  rdata : Option Word
  deriving DecidableEq, Repr

/-- What comes from outside: a host transaction, the POLL loop of the script notation (R66), or a change of the reset
input (R114). Log entries 2, 9 and 12. -/
inductive Input where
  | txn (t : Txn)
  | poll (off : Offset) (mask val : Word)
  | assertReset
  | releaseReset
  deriving DecidableEq, Repr

/-- Whose step is next (R11). A host turn takes the next input, the reset input's changes among them. -/
inductive Turn where
  | host
  | engine
  deriving DecidableEq, Repr

/-- The bytes of a buffer that have been written since the last reset, as (index, byte) pairs with strictly rising
indices. An index that is not listed holds no written byte. Log entry 4. -/
abbrev Memory := List Host.Cell

/-- The machine. -/
structure State where
  /-- IN_CAP and OUT_CAP (R6), read as INCAP and OUTCAP (R16, R17); no step changes them. -/
  cfg : Config
  /-- STATUS (R19). -/
  status : Status
  /-- IN_LEN (R22). -/
  inLen : Word
  /-- OUT_LEN (R25). -/
  outLen : Word
  /-- ERR_POS (R26). -/
  errPos : Word
  /-- CONSUMED (R27). -/
  consumed : Word
  /-- RESULT_INFO (R28). -/
  resultInfo : ResultInfo
  /-- IRQ_EN (R29). -/
  irqEn : IrqEn
  /-- OP_L, the engine's latched operation (R33). -/
  opL : Op
  /-- N_L, the engine's latched length (R33). -/
  nL : Nat
  /-- IN_MEM (R32). -/
  inMem : Memory
  /-- OUT_MEM (R32). -/
  outMem : Memory
  /-- The level of the reset input (R114). -/
  resetAsserted : Bool
  /-- Model's own: the inputs still to come, the next first. Log entry 2. -/
  inputs : List Input
  /-- Model's own: the turns still to come, the next first. Log entry 1. -/
  sched : List Turn
  /-- The port's response to the last transaction (R34); none before the first. Log entry 8. -/
  resp : Option Response
  /-- Model's own: how many resets the reset input has made; selects the SRAM_INIT draw. Log entry 6. -/
  epoch : Nat
  /-- Model's own: how many old-or-new choices have been made. Log entry 6. -/
  draws : Nat
  deriving DecidableEq, Repr

/-- Why the machine is stuck. -/
inductive Fault where
  /-- Raised by a host turn whose input is a transaction or a POLL while reset is asserted: the host must issue none then, and
  a model has no such step (R114; 93_implementation_defined.md: `stuck`). Safe. -/
  | transactionDuringReset
  deriving DecidableEq, Repr

/-- Why an instruction has no meaning. -/
inductive Refusal where
  /-- Raised by an arm of `exec` for an instruction with no meaning yet; no arm does now. Safe. -/
  | notModelled (mnemonic : String)
  deriving DecidableEq, Repr

/-- STATUS after reset: 0x00000000 (R19). -/
def Status.reset : Status :=
  { busy := false, done := false, err := false, haz := false, errCode := .none, lastOp := .encode }

/-- RESULT_INFO after reset: 0 (R28). -/
def ResultInfo.reset : ResultInfo := { encPad := 0, decTail := 0, padFound := false }

/-- IRQ_EN after reset: 0 (R29). -/
def IrqEn.reset : IrqEn := { doneIe := false, errIe := false, hazIe := false }

/-- The machine right after reset (10_state.md section 6, R114 to R116), in the reference configuration (R6; log entry 3).
OP_L and N_L have no reset value in the spec: ENCODE and 0 are DESIGN CHOICE, log entry 5. The buffers list nothing: every
byte reads as its SRAM_INIT draw (R115; log entry 4). -/
def State.reset : State :=
  { cfg := Config.reference
    status := Status.reset
    inLen := 0
    outLen := 0
    errPos := 0
    consumed := 0
    resultInfo := ResultInfo.reset
    irqEn := IrqEn.reset
    opL := .encode
    nL := 0
    inMem := []
    outMem := []
    resetAsserted := false
    inputs := []
    sched := []
    resp := none
    epoch := 0
    draws := 0 }

end Sys2Proof.Machine
end

