-- ==== Sys2Proof/Machine/Codec.lean ====
section
/-! DEFINITION. The transform: the tables ALPH and REV (30_encoding.md R62 to R64), the encoder (41_encoder.md R77 to R84) and the
decoder (42_decoder.md R88 to R94). All values are unsigned bit fields (R86, R97). -/

namespace Sys2Proof.Machine

/-- The padding symbol `=`, code PAD (R63). -/
def pad : Byte := 0x3D

/-- ALPH, from 6-bit value to character code (R62), in its ranges. -/
def alph (v : Sym) : Byte :=
  if v.toNat < 26 then BitVec.ofNat 8 (0x41 + v.toNat)
  else if v.toNat < 52 then BitVec.ofNat 8 (0x61 + (v.toNat - 26))
  else if v.toNat < 62 then BitVec.ofNat 8 (0x30 + (v.toNat - 52))
  else if v.toNat = 62 then 0x2B
  else 0x2F

/-- The three classes of the reverse table (R64). -/
inductive RevClass where
  | symbol (v : Sym)
  | padmark
  | invalid
  deriving DecidableEq, Repr

/-- REV, from character code to class (R64). -/
def rev (c : Byte) : RevClass :=
  if 0x41 ≤ c.toNat ∧ c.toNat ≤ 0x5A then .symbol (BitVec.ofNat 6 (c.toNat - 0x41))
  else if 0x61 ≤ c.toNat ∧ c.toNat ≤ 0x7A then .symbol (BitVec.ofNat 6 (c.toNat - 0x61 + 26))
  else if 0x30 ≤ c.toNat ∧ c.toNat ≤ 0x39 then .symbol (BitVec.ofNat 6 (c.toNat - 0x30 + 52))
  else if c = 0x2B then .symbol 62
  else if c = 0x2F then .symbol 63
  else if c = pad then .padmark
  else .invalid

/-- Packing half of the packer (R78): the byte of lowest index is the most significant. -/
def packBytes (b0 b1 b2 : Byte) : Acc := (b0 ++ b1 ++ b2 : BitVec (8 + 8 + 8))

/-- Slicing half of the packer (R79): slice k is `(acc >> (18 - 6k)) & 0x3F`. -/
def slice (acc : Acc) (k : Nat) : Sym := ((acc >>> (18 - 6 * k)) &&& 0x3F).setWidth 6

/-- The character at position k of a group with r real bytes (R80, R81). -/
def groupChar (r : Nat) (acc : Acc) (k : Nat) : Byte := if k ≤ r then alph (slice acc k) else pad

/-- The four characters of a group with r real bytes (R82). -/
def groupChars (r : Nat) (acc : Acc) : List Byte :=
  [groupChar r acc 0, groupChar r acc 1, groupChar r acc 2, groupChar r acc 3]

/-- `Encode(b)` (R82): the groups of R77 in order, each giving four characters; a missing byte packs as 0x00 (R78). -/
def encodeBytes : List Byte → List Byte
  | [] => []
  | [b0] => groupChars 1 (packBytes b0 0 0)
  | [b0, b1] => groupChars 2 (packBytes b0 b1 0)
  | b0 :: b1 :: b2 :: bs => groupChars 3 (packBytes b0 b1 b2) ++ encodeBytes bs

/-- `EncPad(N)` (R84). -/
def encPad (n : Nat) : Nat := (3 - n % 3) % 3

/-- The stop index S (R89): the index of the first padding symbol, or the length if there is none. -/
def stopIndex : List Byte → Nat
  | [] => 0
  | c :: cs => if c = pad then 0 else stopIndex cs + 1

/-- The lowest index of an INVALID character (R90), of the list given. -/
def firstInvalid : List Byte → Option Nat
  | [] => none
  | c :: cs => if rev c = .invalid then some 0 else (firstInvalid cs).map (· + 1)

/-- The 6-bit value of a character that is a symbol (R90). -/
def symbolOf (c : Byte) : Option Sym :=
  match rev c with
  | .symbol v => some v
  | .padmark => none
  | .invalid => none

/-- An 8-bit slice of the decoder's accumulator (R91): slice k is `(acc >> (16 - 8k)) & 0xFF`. -/
def byteSlice (acc : Acc) (k : Nat) : Byte := ((acc >>> (16 - 8 * k)) &&& 0xFF).setWidth 8

/-- The accumulator of a full group (R91): the first value is the most significant. -/
def packSyms (v0 v1 v2 v3 : Sym) : Acc := (v0 ++ v1 ++ v2 ++ v3 : BitVec (6 + 6 + 6 + 6))

/-- The bytes of the leftover values (R92): none from 0 or 1, one from 2, two from 3. -/
def unpackTail : List Sym → List Byte
  | [v0, v1] => [byteSlice (((v0 ++ v1 : BitVec (6 + 6)).setWidth 24) <<< 12) 0]
  | [v0, v1, v2] =>
    let acc : Acc := ((v0 ++ v1 ++ v2 : BitVec (6 + 6 + 6)).setWidth 24) <<< 6
    [byteSlice acc 0, byteSlice acc 1]
  | _ => []

/-- The 6-bit unpacker (R91, R92): three bytes from each full group, then the tail. -/
def unpack : List Sym → List Byte
  | v0 :: v1 :: v2 :: v3 :: vs =>
    let acc := packSyms v0 v1 v2 v3
    byteSlice acc 0 :: byteSlice acc 1 :: byteSlice acc 2 :: unpack vs
  | vs => unpackTail vs

/-- The result of a decode (R93): the bytes and the stop index, or the index of the first invalid character. -/
inductive DecodeResult where
  | ok (out : List Byte) (stop : Nat)
  | invalidSymbol (pos : Nat)
  deriving DecidableEq, Repr

/-- `Decode(t)` (R93): the whole scanned prefix is validated before any byte is produced. -/
def decodeChars (t : List Byte) : DecodeResult :=
  let scanned := t.take (stopIndex t)
  match firstInvalid scanned with
  | some j => .invalidSymbol j
  | none => .ok (unpack (scanned.filterMap symbolOf)) (stopIndex t)

/-- The source's own description of the decoder (R93, 90_conflicts.md C6): accumulate symbol values in a running buffer
`buf` and flush every four into `out`; `i` is the index of the next character. The machine does not run it: it is the
decoder `decodeChars` must agree with. -/
def runningDecode (buf : List Sym) (out : List Byte) (i : Nat) : List Byte → DecodeResult
  | [] => .ok (out ++ unpackTail buf) i
  | c :: cs =>
    match rev c with
    | .padmark => .ok (out ++ unpackTail buf) i
    | .invalid => .invalidSymbol i
    | .symbol v =>
      match buf with
      | [v0, v1, v2] => runningDecode [] (out ++ unpack [v0, v1, v2, v]) (i + 1) cs
      | _ => runningDecode (buf ++ [v]) out (i + 1) cs

end Sys2Proof.Machine
end

