-- ==== Sys2Proof/Machine/Flags.lean ====
section
/-! DEFINITION. STATUS, RESULT_INFO and IRQ_EN as words (10_state.md R19, R28, R29), every update of a flag the rules make
(40_commands.md R68 to R71), and the interrupt output (60_exceptions.md R101). -/

namespace Sys2Proof.Machine

/-- The four bits of ERR_CODE (R100). -/
def ErrCode.bits : ErrCode → BitVec 4
  | .none => 0
  | .invalidSymbol => 1
  | .badLength => 2
  | .badCommand => 3

/-- LAST_OP: 0 ENCODE, 1 DECODE (R19). -/
def opBit : Op → Bool
  | .encode => false
  | .decode => true

/-- STATUS as the host reads it (R19): LAST_OP, ERR_CODE, HAZ, ERR, DONE, BUSY from bit 8 down, reserved bits 0. -/
def Status.toWord (st : Status) : Word :=
  (0#23 ++ BitVec.ofBool (opBit st.lastOp) ++ st.errCode.bits ++ BitVec.ofBool st.haz ++ BitVec.ofBool st.err ++
    BitVec.ofBool st.done ++ BitVec.ofBool st.busy : BitVec (23 + 1 + 4 + 1 + 1 + 1 + 1))

/-- RESULT_INFO as the host reads it (R28). -/
def ResultInfo.toWord (ri : ResultInfo) : Word :=
  (0#15 ++ BitVec.ofBool ri.padFound ++ 0#6 ++ ri.decTail ++ 0#6 ++ ri.encPad : BitVec (15 + 1 + 6 + 2 + 6 + 2))

/-- IRQ_EN as the host reads it (R29). -/
def IrqEn.toWord (ie : IrqEn) : Word :=
  (0#29 ++ BitVec.ofBool ie.hazIe ++ BitVec.ofBool ie.errIe ++ BitVec.ofBool ie.doneIe : BitVec (29 + 1 + 1 + 1))

/-- IRQ_EN after a write of `w` (R29): bits 2:0 are stored, the others ignored. -/
def IrqEn.ofWord (w : Word) : IrqEn :=
  { doneIe := w.getLsbD 0, errIe := w.getLsbD 1, hazIe := w.getLsbD 2 }

/-- STATUS after the acceptance of `op` (R68); HAZ is kept. -/
def Status.accepted (st : Status) (op : Op) : Status :=
  { st with busy := true, done := false, err := false, errCode := .none, lastOp := op }

/-- STATUS after a rejection with `code` (R69); `lastOp` is the requested operation for BAD_LENGTH and the old value else. -/
def Status.rejected (st : Status) (code : ErrCode) (lastOp : Op) : Status :=
  { st with done := false, err := true, errCode := code, lastOp := lastOp }

/-- STATUS after a completion without an error (R71). -/
def Status.completed (st : Status) : Status := { st with busy := false, done := true }

/-- STATUS after a completion that ends in INVALID_SYMBOL (R71). -/
def Status.failed (st : Status) : Status := { st with busy := false, err := true, errCode := .invalidSymbol }

/-- STATUS after a dropped write (R70, R118). -/
def Status.dropped (st : Status) : Status := { st with haz := true }

/-- RESULT_INFO after an ENCODE of `n` bytes (R71). -/
def ResultInfo.ofEncode (pads : Nat) : ResultInfo :=
  { ResultInfo.reset with encPad := BitVec.ofNat 2 pads }

/-- RESULT_INFO after a DECODE of `n` characters that stopped at index `stop` (R71). -/
def ResultInfo.ofDecode (n stop : Nat) : ResultInfo :=
  { ResultInfo.reset with decTail := BitVec.ofNat 2 (stop % 4), padFound := decide (stop < n) }

/-- The interrupt output (R101). -/
def State.irq (s : State) : Bool :=
  (s.status.done && s.irqEn.doneIe) || (s.status.err && s.irqEn.errIe) || (s.status.haz && s.irqEn.hazIe)

end Sys2Proof.Machine
end

