-- ==== Sys2Proof/Machine/Ops.lean ====
section
/-! DEFINITION. The named operations over buffers and registers: MemRead and MemWrite (00_scope.md R10), little-endian
assembly (20_memory.md R39), acceptance, rejection and drop of a command (40_commands.md R68 to R70; the block's whole error
entry, 60_exceptions.md R105), the abort (R75, R121), the reset input (R114, R115) and the running operation's result
(R71). -/

namespace Sys2Proof.Machine

/-- The byte written at index `a`, if one has been since the last reset. -/
def Memory.get? : Memory → Nat → Option Byte
  | [], _ => none
  | (b, w) :: m, a => if a = b then some w else Memory.get? m a

/-- Write byte `v` at index `a`, keeping the indices strictly rising. -/
def Memory.set : Memory → Nat → Byte → Memory
  | [], a, v => [(a, v)]
  | (b, w) :: m, a, v =>
    if a < b then (a, v) :: (b, w) :: m
    else if a = b then (a, v) :: m
    else (b, w) :: Memory.set m a v

/-- The canonical form: strictly rising indices. -/
abbrev Memory.wf (m : Memory) : Prop := m.Pairwise fun x y => x.1 < y.1

/-- Write the bytes of a list at indices `a`, `a + 1`, … (MemWrite, R10). -/
def Memory.setList (m : Memory) (a : Nat) : List Byte → Memory
  | [] => m
  | b :: bs => Memory.setList (m.set a b) (a + 1) bs

/-- A buffer of the state (R32). -/
def State.buffer (s : State) : Space → Memory
  | .inMem => s.inMem
  | .outMem => s.outMem

/-- The byte of a buffer at index `i`: the one last written, or the SRAM_INIT draw where none has been since the last reset
(R115, R122). -/
def State.byteAt (s : State) (sp : Space) (i : Nat) : Byte :=
  ((s.buffer sp).get? i).getD (Config.sramInit s.epoch sp i)

/-- `MemRead(SPACE, a, n)` (R10). -/
def State.memRead (s : State) (sp : Space) (a n : Nat) : List Byte :=
  (List.range n).map fun k => s.byteAt sp (a + k)

/-- `MemWrite(IN, a, len(bs), bs)` (R10, R42). -/
def State.writeIn (s : State) (a : Nat) (bs : List Byte) : State :=
  { s with inMem := s.inMem.setList a bs }

/-- `MemWrite(OUT, a, len(bs), bs)` (R10, R46). -/
def State.writeOut (s : State) (a : Nat) (bs : List Byte) : State :=
  { s with outMem := s.outMem.setList a bs }

/-- The bytes a transaction moves (R34). -/
def Size.bytes : Size → Nat
  | .one => 1
  | .two => 2
  | .four => 4

/-- Read data from bytes: byte k occupies bits 8k+7:8k, the bits above are 0 (R34, R39). -/
def wordOfBytes : List Byte → Word
  | [] => 0
  | b :: bs => b.setWidth 32 ||| (wordOfBytes bs <<< 8)

/-- The bytes of write data: byte k is bits 8k+7:8k, for the n bytes of the access (R34, R39). -/
def bytesOfWord (n : Nat) (w : Word) : List Byte :=
  (List.range n).map fun k => (w >>> (8 * k)).setWidth 8

/-- OUT_LEN, ERR_POS, CONSUMED and RESULT_INFO set to 0 (R24). -/
def State.clearResults (s : State) : State :=
  { s with outLen := 0, errPos := 0, consumed := 0, resultInfo := ResultInfo.reset }

/-- Acceptance of ENCODE or DECODE (R68). -/
def State.accept (s : State) (op : Op) : State :=
  { s.clearResults with status := s.status.accepted op, opL := op, nL := s.inLen.toNat }

/-- Rejection with BAD_LENGTH (R69): LAST_OP takes the requested operation. -/
def State.rejectLength (s : State) (op : Op) : State :=
  { s.clearResults with status := s.status.rejected .badLength op }

/-- Rejection with BAD_COMMAND (R69): LAST_OP is kept. -/
def State.rejectCommand (s : State) : State :=
  { s.clearResults with status := s.status.rejected .badCommand s.status.lastOp }

/-- A dropped write: HAZ becomes 1 and nothing else changes (R70, R118). -/
def State.drop (s : State) : State := { s with status := s.status.dropped }

/-- The effect of a write of ENCODE or DECODE to CMD (R67): BUSY is checked before the length. -/
def State.startCommand (s : State) (op : Op) : State :=
  if s.status.busy then s.drop
  else if s.inLen.toNat ≤ s.cfg.inCap then s.accept op
  else s.rejectLength op

/-- The effect of a write of a reserved word to CMD (R59, R67): the length is never checked. -/
def State.reservedCommand (s : State) : State :=
  if s.status.busy then s.drop else s.rejectCommand

/-- The input of the running operation: `MemRead(IN, 0, N_L)` (R45). -/
def State.engineData (s : State) : List Byte := s.memRead .inMem 0 s.nL

/-- The bytes the running operation writes at OUT_MEM index 0 and up (R46, R120); a failing DECODE writes none (R72). -/
def State.pendingOut (s : State) : List Byte :=
  match s.opL with
  | .encode => encodeBytes s.engineData
  | .decode =>
    match decodeChars s.engineData with
    | .ok out _ => out
    | .invalidSymbol _ => []

/-- The choice number `n` between an old and a new byte (R120, R121). -/
def oldOrNew (n : Nat) (old new : Byte) : Byte := if Config.takesNew n then new else old

/-- What OUT_MEM index `i` shows while the operation runs, by choice number `n`: the byte it holds, or the byte the operation
will write there, if it will write one (R120). -/
def State.racyByte (s : State) (n i : Nat) : Byte :=
  match s.pendingOut[i]? with
  | some new => oldOrNew n (s.byteAt .outMem i) new
  | none => s.byteAt .outMem i

/-- The bytes the abort of the running operation leaves at OUT_MEM index 0 and up, one choice a byte (R121). -/
def State.abortBytes (s : State) : List Byte :=
  (List.range s.pendingOut.length).map fun i => s.racyByte (s.draws + i) i

/-- The abort of a running operation (R75, R121): its engine step is never taken, and each OUT_MEM byte it would have written
is left old or new. -/
def State.abort (s : State) : State :=
  { s.writeOut 0 s.abortBytes with draws := s.draws + s.pendingOut.length }

/-- STATUS and the result registers set to 0 (R75). -/
def State.clearStatus (s : State) : State := { s.clearResults with status := Status.reset }

/-- The reset input becomes asserted (R114): every register takes its reset value, a running operation is abandoned, OP_L
and N_L become unspecified, and every byte of both buffers becomes unspecified (R115, R121). -/
def State.assertReset (s : State) : State :=
  { s with
    status := Status.reset
    inLen := 0
    outLen := 0
    errPos := 0
    consumed := 0
    resultInfo := ResultInfo.reset
    irqEn := IrqEn.reset
    opL := Config.opAfterReset (s.epoch + 1)
    nL := Config.lenAfterReset (s.epoch + 1)
    inMem := []
    outMem := []
    resetAsserted := true
    epoch := s.epoch + 1 }

/-- The reset input becomes released (R114, R117). -/
def State.releaseReset (s : State) : State := { s with resetAsserted := false }

/-- The inputs still to come from outside. -/
def State.setInputs (s : State) (rest : List Input) : State := { s with inputs := rest }

/-- The port's response to a transaction. -/
def State.respond (s : State) (r : Response) : State := { s with resp := some r }

end Sys2Proof.Machine
end

