-- ==== Sys2Proof/Machine/Operands.lean ====
section
/-! DEFINITION. What a transaction names and what a register reads as: the address map (20_memory.md R35 to R37, R41), the
register values (10_state.md R15 to R30), and the value an OUT window read returns (R43, R120). -/

namespace Sys2Proof.Machine

/-- The register at an offset (R14). -/
def regAt (off : Offset) : Option Reg :=
  if off = 0x000 then some .id
  else if off = 0x004 then some .inCap
  else if off = 0x008 then some .outCap
  else if off = 0x00C then some .cmd
  else if off = 0x010 then some .status
  else if off = 0x014 then some .inLen
  else if off = 0x018 then some .outLen
  else if off = 0x01C then some .errPos
  else if off = 0x020 then some .consumed
  else if off = 0x024 then some .resultInfo
  else if off = 0x028 then some .irqEn
  else none

/-- What a legal transaction reaches: a register, or a buffer from an index on. -/
inductive Target where
  | reg (r : Reg)
  | window (sp : Space) (i : Nat)
  deriving DecidableEq, Repr

/-- A window access of `n` bytes at index `i` of a buffer of `cap` bytes: legal when it is naturally aligned and lies inside
the window (R36 (a), (c), (d), R41). -/
def windowTarget (sp : Space) (cap i n : Nat) : Option Target :=
  if i % n = 0 ∧ i + n ≤ cap then some (.window sp i) else none

/-- What a transaction reaches (R35); none where it gets SLVERR (R36). -/
def target (c : Config) (off : Offset) (size : Size) : Option Target :=
  if off.toNat < 0x100 then
    if size = .four then (regAt off).map .reg else none
  else if off.toNat < 0x10000 then none
  else if off.toNat < 0x20000 then windowTarget .inMem c.inCap (off.toNat - 0x10000) size.bytes
  else windowTarget .outMem c.outCap (off.toNat - 0x20000) size.bytes

/-- The value a register reads as (R15 to R30). -/
def State.readReg (s : State) : Reg → Word
  | .id => 0x42363401
  | .inCap => BitVec.ofNat 32 s.cfg.inCap
  | .outCap => BitVec.ofNat 32 s.cfg.outCap
  | .cmd => 0
  | .status => s.status.toWord
  | .inLen => s.inLen
  | .outLen => s.outLen
  | .errPos => s.errPos
  | .consumed => s.consumed
  | .resultInfo => s.resultInfo.toWord
  | .irqEn => s.irqEn.toWord

/-- The bytes an OUT window read of `n` bytes at index `i` returns while BUSY = 1 (R120): one choice a byte. -/
def State.racyRead (s : State) (i n : Nat) : List Byte :=
  (List.range n).map fun k => s.racyByte (s.draws + k) (i + k)

/-- The offset of the CMD register (R14). -/
def cmdOffset : Offset := 0x00C

end Sys2Proof.Machine
end

