-- ==== Sys2Proof/Machine/Commands.lean ====
section
/-! DEFINITION. The meanings of the four commands at the write to CMD (40_commands.md R67). -/

namespace Sys2Proof.Machine

/-- NOP (R74): no effect, whatever BUSY is. -/
def execNop (s : State) : Host.Outcome State Fault Refusal := .next s

/-- ENCODE at the CMD write (R67, R87): accepted, rejected with BAD_LENGTH, or dropped. Its result is the completion step's
(Engine.lean). -/
def execEncode (s : State) : Host.Outcome State Fault Refusal := .next (s.startCommand .encode)

/-- DECODE at the CMD write (R67, R98). -/
def execDecode (s : State) : Host.Outcome State Fault Refusal := .next (s.startCommand .decode)

/-- CLEAR (R75): aborts a running operation (R121), then zeroes STATUS and the result registers. -/
def execClear (s : State) : Host.Outcome State Fault Refusal :=
  .next (if s.status.busy then s.abort.clearStatus else s.clearStatus)

end Sys2Proof.Machine
end

