-- ==== Sys2Proof/Machine/Engine.lean ====
section
/-! DEFINITION. The engine's one step, completion (40_commands.md R71). -/

namespace Sys2Proof.Machine

/-- Completion of an ENCODE (R71, R87). -/
def State.completeEncode (s : State) : State :=
  let out := encodeBytes s.engineData
  { s.writeOut 0 out with
    outLen := BitVec.ofNat 32 out.length
    consumed := BitVec.ofNat 32 s.nL
    resultInfo := ResultInfo.ofEncode (encPad s.nL)
    status := s.status.completed }

/-- Completion of a DECODE (R71, R98): all of the result, or none of it (R72). -/
def State.completeDecode (s : State) : State :=
  match decodeChars s.engineData with
  | .ok out stop =>
    { s.writeOut 0 out with
      outLen := BitVec.ofNat 32 out.length
      consumed := BitVec.ofNat 32 stop
      resultInfo := ResultInfo.ofDecode s.nL stop
      status := s.status.completed }
  | .invalidSymbol j => { s with errPos := BitVec.ofNat 32 j, status := s.status.failed }

/-- The completion step (R71). -/
def State.complete (s : State) : State :=
  match s.opL with
  | .encode => s.completeEncode
  | .decode => s.completeDecode

/-- A turn of the engine: completion exactly when BUSY = 1 (R71), else nothing (R113). -/
def engineTurn (s : State) : State := if s.status.busy then s.complete else s

end Sys2Proof.Machine
end

