-- ==== Sys2Proof/Machine/Port.lean ====
section
/-! DEFINITION. The host port (20_memory.md R34 to R44) and the turns of the two agents (00_scope.md R11, R49). -/

namespace Sys2Proof.Machine

/-- The OKAY response of a READ. -/
def okayRead (w : Word) : Response := { resp := .okay, rdata := some w }

/-- The OKAY response of a WRITE; it has no rdata (R34). -/
def okayWrite : Response := { resp := .okay, rdata := none }

/-- The SLVERR response of a READ: rdata 0 (R36). -/
def slverrRead : Response := { resp := .slverr, rdata := some 0 }

/-- The SLVERR response of a WRITE (R36). -/
def slverrWrite : Response := { resp := .slverr, rdata := none }

/-- A READ (R36, R37, R42, R43, R120). -/
def State.performRead (s : State) (off : Offset) (size : Size) : State :=
  match target s.cfg off size with
  | none => s.respond slverrRead
  | some (.reg r) => s.respond (okayRead (s.readReg r))
  | some (.window .inMem i) => s.respond (okayRead (wordOfBytes (s.memRead .inMem i size.bytes)))
  | some (.window .outMem i) =>
    if s.status.busy then
      { s.respond (okayRead (wordOfBytes (s.racyRead i size.bytes))) with draws := s.draws + size.bytes }
    else s.respond (okayRead (wordOfBytes (s.memRead .outMem i size.bytes)))

/-- A WRITE of word `w` to CMD (R67): the command it stands for runs; a reserved word is rejected or dropped. -/
def commandWrite (w : Word) (s : State) : Host.Outcome State Fault Refusal :=
  match decode w with
  | .ok i => exec i s
  | .error _ => .next s.reservedCommand

/-- A WRITE to a register (R22, R29, R37, R38, R67). -/
def writeReg (r : Reg) (w : Word) (s : State) : Host.Outcome State Fault Refusal :=
  match r with
  | .cmd => commandWrite w s
  | .inLen => .next { s with inLen := w }
  | .irqEn => .next { s with irqEn := IrqEn.ofWord w }
  | .id => .next s
  | .inCap => .next s
  | .outCap => .next s
  | .status => .next s
  | .outLen => .next s
  | .errPos => .next s
  | .consumed => .next s
  | .resultInfo => .next s

/-- A WRITE of `n` bytes to the IN window at index `i` (R42), dropped while BUSY = 1 (R118). -/
def State.writeInWindow (s : State) (i n : Nat) (w : Word) : State :=
  if s.status.busy then s.drop else s.writeIn i (bytesOfWord n w)

/-- A WRITE (R36, R37, R38, R42). -/
def performWrite (off : Offset) (size : Size) (w : Word) (s : State) : Host.Outcome State Fault Refusal :=
  match target s.cfg off size with
  | none => .next (s.respond slverrWrite)
  | some (.reg r) => writeReg r w (s.respond okayWrite)
  | some (.window .inMem i) => .next ((s.respond okayWrite).writeInWindow i size.bytes w)
  | some (.window .outMem _) => .next (s.respond okayWrite)

/-- One host transaction (R34). -/
def transact (t : Txn) (s : State) : Host.Outcome State Fault Refusal :=
  match t with
  | .read off size => .next (s.performRead off size)
  | .write off size w => performWrite off size w s

/-- The rdata of the last response. -/
def State.lastRdata (s : State) : Option Word := s.resp.bind (·.rdata)

/-- One round of a POLL loop (R66): a 32-bit READ; the loop is left when the masked data has the value. -/
def State.pollOnce (s : State) (off : Offset) (mask val : Word) (rest : List Input) : State :=
  let t := s.performRead off .four
  if t.lastRdata.map (· &&& mask) = some val then t.setInputs rest else t

/-- A turn of the host: the next input from outside. With none left, nothing happens (R113). While reset is asserted there
is no transaction (R114). -/
def hostTurn (s : State) : Host.Outcome State Fault Refusal :=
  match s.inputs with
  | [] => .next s
  | .assertReset :: rest => .next (s.setInputs rest).assertReset
  | .releaseReset :: rest => .next (s.setInputs rest).releaseReset
  | .poll off mask val :: rest =>
    if s.resetAsserted then .fault .transactionDuringReset else .next (s.pollOnce off mask val rest)
  | .txn t :: rest =>
    if s.resetAsserted then .fault .transactionDuringReset else transact t (s.setInputs rest)

/-- Whose turn it is: the schedule's choice; when the schedule has run out, the engine's if BUSY = 1 (weak fairness, R125),
else the host's. Log entry 1. -/
def State.turn (s : State) : Turn :=
  match s.sched with
  | t :: _ => t
  | [] => if s.status.busy then .engine else .host

/-- The state with its turn taken off the schedule. -/
def State.takeTurn (s : State) : State := { s with sched := s.sched.tail }

end Sys2Proof.Machine
end

