-- ==== Sys2Proof/Machine/Step.lean ====
section
/-! DEFINITION. One step of the machine: one turn of the host or of the engine (00_scope.md R11, 20_memory.md R49). -/

namespace Sys2Proof.Machine

/-- One step. -/
def step (s : State) : Host.Outcome State Fault Refusal :=
  match s.turn with
  | .engine => .next (engineTurn s.takeTurn)
  | .host => hostTurn s.takeTurn

/-- The state whose very next step is the 32-bit WRITE to CMD of the command word `w` (R67): B64C has no program counter and
fetches nothing (R13). Log entry 13. -/
def State.withFetchWord (s : State) (nbits w : Nat) : State :=
  { s with
    inputs := .txn (.write cmdOffset .four (BitVec.ofNat 32 (w % 2 ^ nbits))) :: s.inputs
    sched := .host :: s.sched
    resetAsserted := false }

end Sys2Proof.Machine
end

