-- ==== Sys2Proof/Machine/Script.lean ====
section
/-! DEFINITION. The host script notation (30_encoding.md R66): each line is one input, each pseudo-instruction its
expansion. -/

namespace Sys2Proof.Machine

/-- `WR32 off, val`. -/
def wr32 (off : Offset) (val : Word) : Input := .txn (.write off .four val)

/-- `WR16 off, val`. -/
def wr16 (off : Offset) (val : Word) : Input := .txn (.write off .two val)

/-- `WR8 off, val`. -/
def wr8 (off : Offset) (val : Word) : Input := .txn (.write off .one val)

/-- `RD32 off`. -/
def rd32 (off : Offset) : Input := .txn (.read off .four)

/-- `RD16 off`. -/
def rd16 (off : Offset) : Input := .txn (.read off .two)

/-- `RD8 off`. -/
def rd8 (off : Offset) : Input := .txn (.read off .one)

/-- `NOP`, `ENCODE`, `DECODE` or `CLEAR`: a WRITE of the command word to CMD. -/
def command (i : Instr) : Input := wr32 cmdOffset (encode i)

/-- `SETLEN n`. -/
def setLen (n : Word) : Input := wr32 0x014 n

/-- `LOAD i, [b0, b1, ...]`: one byte write a byte. -/
def load (i : Nat) : List Byte → List Input
  | [] => []
  | b :: bs => wr8 (BitVec.ofNat 18 (0x10000 + i)) (b.setWidth 32) :: load (i + 1) bs

/-- `WAIT`: poll STATUS until BUSY = 0. -/
def wait : Input := .poll 0x010 0x00000001 0x00000000

end Sys2Proof.Machine
end

