-- ==== Sys2Proof/Safety.lean ====
section
/-! DEFINITION. The terms in which claims about the machine are made: the invariants every step keeps, the host's side of the
reset protocol, the block's own state, and the steps of one running operation. -/

namespace Sys2Proof.Machine

/-- The STATUS invariants of 10_state.md R20, with the one clause about the hidden OP_L that keeps the last of them: while an
operation runs, LAST_OP is the running operation (R68). -/
structure State.StatusInv (s : State) : Prop where
  notDoneAndErr : ¬ (s.status.done = true ∧ s.status.err = true)
  busyIsClean : s.status.busy = true → s.status.done = false ∧ s.status.err = false ∧ s.status.errCode = .none
  errHasCode : s.status.err = false ↔ s.status.errCode = .none
  invalidIsDecode : s.status.errCode = .invalidSymbol → s.status.lastOp = .decode
  lastOpRuns : s.status.busy = true → s.status.lastOp = s.opL

/-- Every index a buffer lists lies below its capacity (R32). -/
def Memory.below (m : Memory) (cap : Nat) : Prop := ∀ x ∈ m, x.1 < cap

/-- The invariant of the whole block. -/
structure State.Inv (s : State) : Prop where
  /-- The parameters keep their constraints (R6). -/
  cfgLegal : s.cfg.wf = true
  /-- R20. -/
  statusInv : s.StatusInv
  /-- The running length never exceeds IN_CAP (R33, R68). -/
  lenLegal : s.status.busy = true → s.nL ≤ s.cfg.inCap
  /-- OUT_LEN, CONSUMED and RESULT_INFO are 0 unless the last operation completed without an error (R24, R25, R27, R28). -/
  noResult : s.status.done = false → s.outLen = 0 ∧ s.consumed = 0 ∧ s.resultInfo = ResultInfo.reset
  /-- ERR_POS is 0 unless the last DECODE ended in INVALID_SYMBOL (R26). -/
  noErrPos : s.status.errCode ≠ .invalidSymbol → s.errPos = 0
  /-- The RESULT_INFO fields of the other operation are 0 (R28). -/
  encodeInfo : s.status.done = true → s.status.lastOp = .encode →
    s.resultInfo.decTail = 0 ∧ s.resultInfo.padFound = false
  decodeInfo : s.status.done = true → s.status.lastOp = .decode → s.resultInfo.encPad = 0
  /-- The result's bytes lie inside OUT_MEM and its input inside IN_MEM (R8, R25, R27). -/
  resultFits : s.outLen.toNat ≤ s.cfg.outCap ∧ s.consumed.toNat ≤ s.cfg.inCap ∧ s.errPos.toNat ≤ s.cfg.inCap
  /-- Both buffers keep their canonical form and their capacity (R32). -/
  inMemWf : s.inMem.wf
  outMemWf : s.outMem.wf
  inMemBelow : s.inMem.below s.cfg.inCap
  outMemBelow : s.outMem.below s.cfg.outCap
  /-- While reset is asserted every register keeps its reset value (R114). -/
  inReset : s.resetAsserted = true → s.status = Status.reset ∧ s.inLen = 0 ∧ s.irqEn = IrqEn.reset

/-- The host issues no transaction while reset is asserted (R114): `asserted` is the level before the inputs given. -/
def hostWaits (asserted : Bool) : List Input → Bool
  | [] => true
  | .txn _ :: rest => !asserted && hostWaits asserted rest
  | .poll _ _ _ :: rest => !asserted && hostWaits asserted rest
  | .assertReset :: rest => hostWaits true rest
  | .releaseReset :: rest => hostWaits false rest

/-- The host's remaining inputs keep the reset protocol. -/
def State.hostObeys (s : State) : Bool := hostWaits s.resetAsserted s.inputs

/-- B64C's own state: all of it but what is still to come from outside, the port's last response and the counter of choices
made. -/
def State.block (s : State) : State := { s with inputs := [], sched := [], resp := none, draws := 0 }

/-- The offset of a transaction (R34). -/
def Txn.offset : Txn → Nat
  | .read off _ => off.toNat
  | .write off _ _ => off.toNat

/-- The size of a transaction in bytes (R34). -/
def Txn.bytes : Txn → Nat
  | .read _ size => size.bytes
  | .write _ size _ => size.bytes

/-- The unmapped offsets of R35. -/
def unmapped (c : Config) (o : Nat) : Prop :=
  (0x2C ≤ o ∧ o < 0x100) ∨ (0x100 ≤ o ∧ o < 0x10000) ∨ (0x10000 + c.inCap ≤ o ∧ o < 0x20000) ∨ 0x20000 + c.outCap ≤ o

/-- The conditions (a) to (d) of R36 under which a transaction of `n` bytes at offset `o` gets SLVERR. -/
def slverrCondition (c : Config) (o n : Nat) : Prop :=
  unmapped c o ∨
  (o < 0x100 ∧ ¬ (n = 4 ∧ o % 4 = 0 ∧ o ≤ 0x28)) ∨
  (0x10000 ≤ o ∧ o % n ≠ 0) ∨
  (0x10000 ≤ o ∧ o < 0x20000 ∧ c.inCap < (o - 0x10000) + n) ∨
  (0x20000 ≤ o ∧ c.outCap < (o - 0x20000) + n)

/-- The next step is a host turn that takes input `x`. -/
def State.takes (s : State) (x : Input) : Prop := s.turn = .host ∧ ∃ rest, s.inputs = x :: rest

/-- `t` is reached from `s` by steps throughout which one operation keeps running. -/
inductive BusySteps : State → State → Prop where
  | refl (s : State) : s.status.busy = true → BusySteps s s
  | tail {s t u : State} : BusySteps s t → step t = .next u → u.status.busy = true → BusySteps s u

end Sys2Proof.Machine
end

