-- ==== Sys2Proof/Certificates/Slice0/Obligations.lean ====
section
/-! DEFINITION. The statements about B64C, from the numbered rules of spec/. -/

open Sys2Proof Sys2Proof.Machine

/-! ### Encoding of commands -/

/-- R57: a word is a valid command exactly when RSVD is 0 and OPCODE is at most 3; it is then the command with that opcode, and
every other word is reserved. The opcodes are those of R56. -/
def Obligations.DecodeIsTotalAndExact : Prop :=
  (∀ w : Word, (∃ i, decode w = .ok i) ↔ (w.extractLsb' 8 24 = 0 ∧ w.extractLsb' 0 8 ≤ 3#8)) ∧
  (∀ (w : Word) (i : Instr), decode w = .ok i ↔
    (w.extractLsb' 8 24 = 0 ∧ w.extractLsb' 0 8 = (match i with
      | .nop => 0x00#8 | .encode => 0x01#8 | .decode => 0x02#8 | .clear => 0x03#8))) ∧
  (∀ w : Word, ¬ (w.extractLsb' 8 24 = 0 ∧ w.extractLsb' 0 8 ≤ 3#8) → ∃ why, decode w = .error why)

/-- Decode and encode agree: decoding the word of a command gives it back, and a word that decodes to a command is that
command's word. -/
def Obligations.DecodeAndEncodeAgree : Prop :=
  (∀ i : Instr, i.wf = true → decode (encode i) = .ok i ∧ validCommand (encode i) = true) ∧
  ∀ (w : Word) (i : Instr), decode w = .ok i → encode i = w

/-- The four command words of R56 written out, and reserved words beside them (95_test_vectors.md C7 to C10). -/
def Obligations.SampleWordsDecode : Prop :=
  decode 0x00000000 = .ok .nop ∧ decode 0x00000001 = .ok .encode ∧ decode 0x00000002 = .ok .decode ∧
  decode 0x00000003 = .ok .clear ∧ decode 0x00000004 = .error .reservedOpcode ∧
  decode 0x000000FF = .error .reservedOpcode ∧ decode 0x00000100 = .error .rsvdNonzero ∧
  decode 0x00000105 = .error .rsvdNonzero ∧ decode 0x80000001 = .error .rsvdNonzero

/-! ### Steps -/

/-- A step runs the decoded command: when the host's turn brings a 32-bit WRITE to CMD of a word that decodes to `i`, the step
is `exec i` of the state with the turn and the input taken and the OKAY response given (R67). -/
def Obligations.StepRunsDecodedCommand : Prop :=
  ∀ (s : State) (rest : List Input) (w : Word) (i : Instr),
    s.turn = .host → s.resetAsserted = false → s.inputs = .txn (.write 0x00C .four w) :: rest → decode w = .ok i →
    step s = exec i ({ s.takeTurn with inputs := rest }.respond { resp := .okay, rdata := none })

/-- R59: a reserved word written while idle ends with BAD_COMMAND, written while busy it is dropped and sets HAZ; it never
executes as any command: nothing else changes. -/
def Obligations.ReservedWordsNeverExecute : Prop :=
  ∀ (s : State) (rest : List Input) (w : Word),
    s.turn = .host → s.resetAsserted = false → s.inputs = .txn (.write 0x00C .four w) :: rest →
    (∀ i, w ≠ encode i) →
    (s.status.busy = false → step s = .next
      { s with sched := s.sched.tail, inputs := rest, resp := some { resp := .okay, rdata := none },
               status := { s.status with done := false, err := true, errCode := .badCommand },
               outLen := 0, errPos := 0, consumed := 0, resultInfo := ResultInfo.reset }) ∧
    (s.status.busy = true → step s = .next
      { s with sched := s.sched.tail, inputs := rest, resp := some { resp := .okay, rdata := none },
               status := { s.status with haz := true } })

/-- The engine's step is enabled exactly when BUSY = 1: its turn completes the operation then, and changes nothing of B64C
while BUSY = 0 (R71). -/
def Obligations.EngineStepsExactlyWhenBusy : Prop :=
  ∀ s : State, s.turn = .engine → ∃ t, step s = .next t ∧
    (s.status.busy = true → t.status.busy = false ∧ (t.status.done = true ∨ t.status.err = true)) ∧
    (s.status.busy = false → t = s.takeTurn)

/-- While BUSY = 0 nothing but a write of the host or the reset input changes B64C's state: a READ, a POLL, an engine turn
and a turn with no input leave every register and every byte as it was (R113, R44). -/
def Obligations.IdleStateChangesOnlyByWrites : Prop :=
  ∀ s t : State, step s = .next t → s.status.busy = false →
    (∀ off size w, ¬ s.takes (.txn (.write off size w))) → ¬ s.takes .assertReset → ¬ s.takes .releaseReset →
    t.block = s.block

/-! ### NOP and CLEAR -/

/-- R74: NOP changes nothing, whatever BUSY is; the response is OKAY; and the word 0x00000100 is not NOP. -/
def Obligations.NopHasNoEffect : Prop :=
  (∀ s : State, exec .nop s = .next s) ∧
  (∀ (s : State) (rest : List Input),
    s.turn = .host → s.resetAsserted = false → s.inputs = .txn (.write 0x00C .four 0x00000000) :: rest →
    step s = .next { s with sched := s.sched.tail, inputs := rest, resp := some { resp := .okay, rdata := none } }) ∧
  encode .nop = 0x00000000 ∧ decode 0x00000100 = .error .rsvdNonzero

/-- R75: CLEAR zeroes STATUS and the result registers, keeps IN_LEN, IRQ_EN and IN_MEM, lets irq fall to 0, and leaves OUT_MEM
unchanged when it is written while BUSY = 0; while BUSY = 1 it aborts, and each OUT_MEM byte the operation would have written is
left old or new and every other is unchanged (R121). The clauses that OP_L and N_L keep their values are the model's choice, log
entry 14: R75 leaves them as they are, 93_implementation_defined.md section 2 lists any value after CLEAR. -/
def Obligations.ClearZeroesStatusAndResults : Prop :=
  ∀ s : State, ∃ t, exec .clear s = .next t ∧
    t.readReg .status = 0 ∧ t.readReg .outLen = 0 ∧ t.readReg .errPos = 0 ∧ t.readReg .consumed = 0 ∧
    t.readReg .resultInfo = 0 ∧ t.status.busy = false ∧ t.irq = false ∧
    t.inLen = s.inLen ∧ t.irqEn = s.irqEn ∧ t.inMem = s.inMem ∧ t.opL = s.opL ∧ t.nL = s.nL ∧ t.cfg = s.cfg ∧
    t.epoch = s.epoch ∧ t.resetAsserted = s.resetAsserted ∧ t.inputs = s.inputs ∧ t.sched = s.sched ∧ t.resp = s.resp ∧
    (s.status.busy = false → t.outMem = s.outMem ∧ t.draws = s.draws) ∧
    (s.status.busy = true → ∀ i : Nat,
      t.byteAt .outMem i = s.byteAt .outMem i ∨ s.pendingOut[i]? = some (t.byteAt .outMem i))

/-- After an abort the OUT_MEM bytes beyond the abandoned result are unchanged, a failing DECODE's abort changes no byte, and
the abandoned engine step is never taken: an engine turn then changes nothing (R121, R75). -/
def Obligations.AbortTouchesOnlyTheAbandonedResult : Prop :=
  ∀ s : State, s.status.busy = true → ∃ t, exec .clear s = .next t ∧
    (∀ i : Nat, s.pendingOut.length ≤ i → t.byteAt .outMem i = s.byteAt .outMem i) ∧
    (∀ i : Nat, t.byteAt .inMem i = s.byteAt .inMem i) ∧
    (s.opL = .decode → (∃ j, decodeChars s.engineData = .invalidSymbol j) →
      ∀ i : Nat, t.byteAt .outMem i = s.byteAt .outMem i) ∧
    engineTurn t = t

/-! ### Acceptance, rejection, drop -/

/-- R68: acceptance of ENCODE and of DECODE, with everything it changes and nothing else. -/
def Obligations.AcceptanceStartsTheOperation : Prop :=
  ∀ s : State, s.status.busy = false → s.inLen.toNat ≤ s.cfg.inCap →
    exec .encode s = .next
      { s with opL := .encode, nL := s.inLen.toNat,
               status := { busy := true, done := false, err := false, haz := s.status.haz, errCode := .none, lastOp := .encode },
               outLen := 0, errPos := 0, consumed := 0, resultInfo := ResultInfo.reset } ∧
    exec .decode s = .next
      { s with opL := .decode, nL := s.inLen.toNat,
               status := { busy := true, done := false, err := false, haz := s.status.haz, errCode := .none, lastOp := .decode },
               outLen := 0, errPos := 0, consumed := 0, resultInfo := ResultInfo.reset }

/-- R69: a rejection records its code, sets LAST_OP for BAD_LENGTH only, zeroes the result registers, and changes nothing
else; a reserved word is BAD_COMMAND whatever IN_LEN holds. -/
def Obligations.RejectionRecordsTheError : Prop :=
  ∀ s : State, s.status.busy = false →
    (s.cfg.inCap < s.inLen.toNat →
      exec .encode s = .next
        { s with status := { s.status with done := false, err := true, errCode := .badLength, lastOp := .encode },
                 outLen := 0, errPos := 0, consumed := 0, resultInfo := ResultInfo.reset } ∧
      exec .decode s = .next
        { s with status := { s.status with done := false, err := true, errCode := .badLength, lastOp := .decode },
                 outLen := 0, errPos := 0, consumed := 0, resultInfo := ResultInfo.reset }) ∧
    (∀ w : Word, (∀ i, w ≠ encode i) →
      commandWrite w s = .next
        { s with status := { s.status with done := false, err := true, errCode := .badCommand },
                 outLen := 0, errPos := 0, consumed := 0, resultInfo := ResultInfo.reset })

/-- R70: ENCODE, DECODE and a reserved word written to CMD while busy set HAZ and change nothing else, the response is OKAY, and
the running operation completes as if the write had not happened. -/
def Obligations.BusyCommandIsDropped : Prop :=
  ∀ s : State, s.status.busy = true → ∃ t,
    t = { s with status := { s.status with haz := true } } ∧
    exec .encode s = .next t ∧ exec .decode s = .next t ∧
    (∀ w : Word, w ≠ encode .nop → w ≠ encode .clear →
      transact (.write 0x00C .four w) s = .next (t.respond { resp := .okay, rdata := none })) ∧
    engineTurn t = { engineTurn s with status := { (engineTurn s).status with haz := true } }

/-! ### The engine step -/

/-- The completion of an ENCODE: OUT_MEM[0..M) is Encode of IN_MEM[0..N_L), every other byte and register is as the rules say
(R71, R87). -/
def Obligations.EncodeCompletionPublishesTheText : Prop :=
  ∀ s : State, s.Inv → s.turn = .engine → s.status.busy = true → s.opL = .encode →
    ∃ t, step s = .next t ∧
      (∀ i : Nat, t.byteAt .outMem i = ((encodeBytes (s.memRead .inMem 0 s.nL))[i]?).getD (s.byteAt .outMem i)) ∧
      (∀ i : Nat, t.byteAt .inMem i = s.byteAt .inMem i) ∧
      t.outLen.toNat = 4 * ((s.nL + 2) / 3) ∧ t.consumed.toNat = s.nL ∧
      t.readReg .resultInfo = BitVec.ofNat 32 ((3 - s.nL % 3) % 3) ∧ t.errPos = 0 ∧
      t.status = { s.status with busy := false, done := true } ∧
      t.inLen = s.inLen ∧ t.irqEn = s.irqEn ∧ t.cfg = s.cfg ∧ t.opL = s.opL ∧ t.nL = s.nL ∧ t.epoch = s.epoch ∧
      t.inputs = s.inputs

/-- The completion of a DECODE whose scanned prefix is valid (R71, R98). -/
def Obligations.DecodeCompletionPublishesTheBytes : Prop :=
  ∀ (s : State) (out : List Byte) (stop : Nat),
    s.Inv → s.turn = .engine → s.status.busy = true → s.opL = .decode →
    decodeChars (s.memRead .inMem 0 s.nL) = .ok out stop →
    ∃ t, step s = .next t ∧
      (∀ i : Nat, t.byteAt .outMem i = (out[i]?).getD (s.byteAt .outMem i)) ∧
      (∀ i : Nat, t.byteAt .inMem i = s.byteAt .inMem i) ∧
      t.outLen.toNat = out.length ∧ t.consumed.toNat = stop ∧
      t.readReg .resultInfo =
        (if stop < s.nL then (1 : Word) else 0) <<< 16 ||| BitVec.ofNat 32 (stop % 4) <<< 8 ∧ t.errPos = 0 ∧
      t.status = { s.status with busy := false, done := true } ∧
      t.inLen = s.inLen ∧ t.irqEn = s.irqEn ∧ t.cfg = s.cfg ∧ t.opL = s.opL ∧ t.nL = s.nL ∧ t.epoch = s.epoch ∧
      t.inputs = s.inputs

/-- R72: a DECODE that ends in INVALID_SYMBOL writes no OUT_MEM byte, leaves OUT_LEN, CONSUMED and RESULT_INFO at 0 and DONE
at 0, and records the lowest invalid index (R71). -/
def Obligations.FailedDecodeReturnsNothing : Prop :=
  ∀ (s : State) (j : Nat),
    s.Inv → s.turn = .engine → s.status.busy = true → s.opL = .decode →
    decodeChars (s.memRead .inMem 0 s.nL) = .invalidSymbol j →
    ∃ t, step s = .next t ∧ t.outMem = s.outMem ∧ t.inMem = s.inMem ∧
      (∀ i : Nat, t.byteAt .outMem i = s.byteAt .outMem i) ∧
      t.outLen = 0 ∧ t.consumed = 0 ∧ t.readReg .resultInfo = 0 ∧ t.errPos.toNat = j ∧
      t.status = { s.status with busy := false, done := false, err := true, errCode := .invalidSymbol } ∧
      t.inLen = s.inLen ∧ t.irqEn = s.irqEn ∧ t.cfg = s.cfg ∧ t.opL = s.opL ∧ t.nL = s.nL ∧ t.epoch = s.epoch ∧
      t.inputs = s.inputs

/-- The whole ENCODE, from the CMD write to the completion: from every idle state with a legal IN_LEN it is accepted, the engine
step that follows publishes Encode of IN_MEM[0..IN_LEN), and STATUS then reads DONE (R87). -/
def Obligations.EncodeRunsToItsResult : Prop :=
  ∀ (s : State) (rest : List Turn), s.cfg.wf = true → s.status.busy = false → s.inLen.toNat ≤ s.cfg.inCap →
    ∃ a t, exec .encode s = .next a ∧ a.status.busy = true ∧ step { a with sched := .engine :: rest } = .next t ∧
      (∀ i : Nat, t.byteAt .outMem i =
        ((encodeBytes (s.memRead .inMem 0 s.inLen.toNat))[i]?).getD (s.byteAt .outMem i)) ∧
      (∀ i : Nat, t.byteAt .inMem i = s.byteAt .inMem i) ∧
      t.readReg .outLen = BitVec.ofNat 32 (4 * ((s.inLen.toNat + 2) / 3)) ∧ t.readReg .consumed = s.inLen ∧
      t.readReg .resultInfo = BitVec.ofNat 32 ((3 - s.inLen.toNat % 3) % 3) ∧ t.readReg .errPos = 0 ∧
      t.readReg .status = (if s.status.haz then 0x0000000A else 0x00000002) ∧
      t.readReg .inLen = s.inLen ∧ t.readReg .irqEn = s.readReg .irqEn

/-- The whole DECODE, from the CMD write to the completion, for a valid and for an invalid scanned prefix (R98). -/
def Obligations.DecodeRunsToItsResult : Prop :=
  ∀ (s : State) (rest : List Turn), s.cfg.wf = true → s.status.busy = false → s.inLen.toNat ≤ s.cfg.inCap →
    ∃ a t, exec .decode s = .next a ∧ a.status.busy = true ∧ step { a with sched := .engine :: rest } = .next t ∧
      (∀ i : Nat, t.byteAt .inMem i = s.byteAt .inMem i) ∧
      t.readReg .inLen = s.inLen ∧ t.readReg .irqEn = s.readReg .irqEn ∧
      (match decodeChars (s.memRead .inMem 0 s.inLen.toNat) with
      | .ok out stop =>
        (∀ i : Nat, t.byteAt .outMem i = (out[i]?).getD (s.byteAt .outMem i)) ∧
        t.readReg .outLen = BitVec.ofNat 32 out.length ∧ t.readReg .consumed = BitVec.ofNat 32 stop ∧
        t.readReg .resultInfo =
          (if stop < s.inLen.toNat then (1 : Word) else 0) <<< 16 ||| BitVec.ofNat 32 (stop % 4) <<< 8 ∧
        t.readReg .errPos = 0 ∧ t.readReg .status = (if s.status.haz then 0x0000010A else 0x00000102)
      | .invalidSymbol j =>
        (∀ i : Nat, t.byteAt .outMem i = s.byteAt .outMem i) ∧
        t.readReg .outLen = 0 ∧ t.readReg .consumed = 0 ∧ t.readReg .resultInfo = 0 ∧
        t.readReg .errPos = BitVec.ofNat 32 j ∧ t.readReg .status = (if s.status.haz then 0x0000011C else 0x00000114))

/-- A completion is a function of the bytes IN_MEM[0..N_L) and the latches alone: two running states that agree on them end
with the same result registers, the same DONE, ERR and ERR_CODE, and the same written bytes, whatever else they hold
(90_conflicts.md C7, R45). -/
def Obligations.CompletionDependsOnlyOnItsInput : Prop :=
  ∀ s₁ s₂ : State, s₁.Inv → s₂.Inv → s₁.status.busy = true → s₂.status.busy = true →
    s₁.opL = s₂.opL → s₁.nL = s₂.nL → (∀ i < s₁.nL, s₁.byteAt .inMem i = s₂.byteAt .inMem i) →
    let t₁ := engineTurn s₁
    let t₂ := engineTurn s₂
    t₁.outLen = t₂.outLen ∧ t₁.errPos = t₂.errPos ∧ t₁.consumed = t₂.consumed ∧ t₁.resultInfo = t₂.resultInfo ∧
    t₁.status.done = t₂.status.done ∧ t₁.status.err = t₂.status.err ∧ t₁.status.errCode = t₂.status.errCode ∧
    ∀ i < t₁.outLen.toNat, t₁.byteAt .outMem i = t₂.byteAt .outMem i

/-! ### The encoder -/

/-- R62 and R63: ALPH is the standard alphabet in its order, and `=` (0x3D) is disjoint from it. -/
def Obligations.AlphabetIsTheStandardOne : Prop :=
  (∀ v : Sym, (("ABCDEFGHIJKLMNOPQRSTUVWXYZabcdefghijklmnopqrstuvwxyz0123456789+/".toList)[v.toNat]?).map
    (fun ch => BitVec.ofNat 8 ch.toNat) = some (alph v)) ∧
  pad = 0x3D ∧ ∀ v : Sym, alph v ≠ pad

/-- R65: ALPH and REV are inverse on the alphabet; and REV marks exactly `=` as the padding symbol (R64). -/
def Obligations.AlphabetAndReverseTableAreInverse : Prop :=
  (∀ v : Sym, rev (alph v) = .symbol v) ∧ (∀ (c : Byte) (v : Sym), rev c = .symbol v → alph v = c) ∧
  (∀ c : Byte, rev c = .padmark ↔ c = 0x3D) ∧ (∀ c : Byte, rev c = .invalid ↔ c ≠ 0x3D ∧ ∀ v : Sym, alph v ≠ c)

/-- R79: slice k is the six accumulator bits from 18 - 6k up; of the accumulator of bytes b0, b1, b2 the four slices are these
bit fields of the bytes. -/
def Obligations.SlicesAreBitFieldsOfTheBytes : Prop :=
  (∀ (acc : Acc) (k : Nat), k < 4 → slice acc k = acc.extractLsb' (18 - 6 * k) 6) ∧
  ∀ b0 b1 b2 : Byte,
    slice (packBytes b0 b1 b2) 0 = b0.extractLsb' 2 6 ∧
    slice (packBytes b0 b1 b2) 1 = b0.extractLsb' 0 2 ++ b1.extractLsb' 4 4 ∧
    slice (packBytes b0 b1 b2) 2 = b1.extractLsb' 0 4 ++ b2.extractLsb' 6 2 ∧
    slice (packBytes b0 b1 b2) 3 = b2.extractLsb' 0 6

/-- R82 by index: the text has four characters for each group, and character k of group g is ALPH of slice k of the group's accumulator when k is at most the group's count of
real bytes, and PAD else; missing bytes pack as 0 (R77, R78, R81). -/
def Obligations.EncodeGivesEachGroupItsCharacters : Prop :=
  ∀ b : List Byte, (encodeBytes b).length = 4 * ((b.length + 2) / 3) ∧
    ∀ g k : Nat, g < (b.length + 2) / 3 → k < 4 →
    let r := min 3 (b.length - 3 * g)
    let acc := packBytes (b[3 * g]?.getD 0) (if 2 ≤ r then b[3 * g + 1]?.getD 0 else 0)
      (if 3 ≤ r then b[3 * g + 2]?.getD 0 else 0)
    (encodeBytes b)[4 * g + k]? = some (if k ≤ r then alph (slice acc k) else pad)

/-- R83: the length law. -/
def Obligations.EncodeLengthLaw : Prop := ∀ b : List Byte, (encodeBytes b).length = 4 * ((b.length + 2) / 3)

/-- R84: EncPad(N) padding symbols end the text, and no other position holds one. -/
def Obligations.EncodePaddingCount : Prop :=
  (∀ b : List Byte, ∃ body, encodeBytes b = body ++ List.replicate (encPad b.length) pad ∧ pad ∉ body) ∧
  ∀ n : Nat, (n % 3 = 0 → encPad n = 0) ∧ (n % 3 = 1 → encPad n = 2) ∧ (n % 3 = 2 → encPad n = 1)

/-- R85: every character is an alphabet symbol or PAD, and PAD stands only in the last one or two positions. -/
def Obligations.EncodeAlphabetClosure : Prop :=
  ∀ b : List Byte, (∀ c ∈ encodeBytes b, (∃ v, c = alph v) ∨ c = pad) ∧
    ∀ i : Nat, (encodeBytes b)[i]? = some pad → (encodeBytes b).length ≤ i + 2

/-- R8: every encode and every decode of a legal input fits in OUT_MEM. -/
def Obligations.ResultsFitInOutMem : Prop :=
  ∀ (c : Config) (d : List Byte), c.wf = true → d.length ≤ c.inCap →
    (encodeBytes d).length ≤ c.outCap ∧
    ∀ out stop, decodeChars d = .ok out stop → out.length ≤ c.outCap ∧ out.length ≤ d.length

/-! ### The decoder -/

/-- R89: the stop index is the index of the first padding symbol, or the length; what follows the first padding symbol has no
effect on the decode. -/
def Obligations.ScanStopsAtFirstPadding : Prop :=
  (∀ (t : List Byte) (n : Nat), stopIndex t = n ↔
    ((n < t.length ∧ t[n]? = some pad) ∨ n = t.length) ∧ ∀ i < n, t[i]? ≠ some pad) ∧
  ∀ p x y : List Byte, decodeChars (p ++ pad :: x) = decodeChars (p ++ pad :: y)

/-- R90: the decode fails exactly when some character of the scanned prefix is INVALID, and reports the lowest such index; else
every scanned character is a symbol and it gives a result with the stop index (R93). -/
def Obligations.LowestInvalidIndexIsReported : Prop :=
  (∀ (t : List Byte) (j : Nat), decodeChars t = .invalidSymbol j ↔
    j < stopIndex t ∧ (t[j]?).map rev = some .invalid ∧ ∀ i < j, (t[i]?).map rev ≠ some .invalid) ∧
  ∀ t : List Byte, (∀ i < stopIndex t, (t[i]?).map rev ≠ some .invalid) →
    (∀ i < stopIndex t, ∃ v, (t[i]?).map rev = some (.symbol v)) ∧ ∃ out, decodeChars t = .ok out (stopIndex t)

/-- R91 and R92 as bit fields of the symbol values: a full group gives three bytes, a leftover of two gives one, of three two,
of none or one none; the bits below are dropped. -/
def Obligations.UnpackedBytesAreBitFields : Prop :=
  (∀ (v0 v1 v2 v3 : Sym) (vs : List Sym), unpack (v0 :: v1 :: v2 :: v3 :: vs) =
    (v0 ++ v1.extractLsb' 4 2 : Byte) :: (v1.extractLsb' 0 4 ++ v2.extractLsb' 2 4 : Byte) ::
      (v2.extractLsb' 0 2 ++ v3 : Byte) :: unpack vs) ∧
  unpack [] = [] ∧ (∀ v0 : Sym, unpack [v0] = []) ∧
  (∀ v0 v1 : Sym, unpack [v0, v1] = [(v0 ++ v1.extractLsb' 4 2 : Byte)]) ∧
  ∀ v0 v1 v2 : Sym, unpack [v0, v1, v2] =
    [(v0 ++ v1.extractLsb' 4 2 : Byte), (v1.extractLsb' 0 4 ++ v2.extractLsb' 2 4 : Byte)]

/-- R94: the output length, and that a decode never gives more bytes than it read characters. -/
def Obligations.DecodeLengthLaw : Prop :=
  ∀ (t out : List Byte) (stop : Nat), decodeChars t = .ok out stop →
    out.length = 3 * (stop / 4) + ([0, 0, 1, 2] : List Nat)[stop % 4]?.getD 0 ∧
    out.length ≤ stop ∧ stop ≤ t.length

/-- R95: the round trip, for every byte list, with the stop index; and the converse does not hold. -/
def Obligations.RoundTripRestoresTheBytes : Prop :=
  (∀ b : List Byte, decodeChars (encodeBytes b) = .ok b (4 * ((b.length + 2) / 3) - encPad b.length) ∧
    stopIndex (encodeBytes b) = 4 * ((b.length + 2) / 3) - encPad b.length) ∧
  ∃ (y out : List Byte) (stop : Nat), decodeChars y = .ok out stop ∧ encodeBytes out ≠ y

/-- The decoder that validates first gives the same bytes, and the same InvalidSymbol, as the source's decoder that
accumulates symbols in a running buffer and flushes every four (R93, 90_conflicts.md C6). -/
def Obligations.RunningBufferDecoderAgrees : Prop :=
  ∀ t : List Byte, runningDecode [] [] 0 t = decodeChars t

/-! ### Registers and the port -/

/-- Right after reset every register reads the value of 10_state.md section 6 (INCAP and OUTCAP those of the reference
configuration, log entry 3), the block is idle and irq is 0. -/
def Obligations.ResetStateReadsTheSpecValues : Prop :=
  (∀ r, State.reset.readReg r = (match r with
    | .id => 0x42363401 | .inCap => 0x00000C00 | .outCap => 0x00001000 | _ => 0)) ∧
  State.reset.status.busy = false ∧ State.reset.irq = false ∧ State.reset.resetAsserted = false ∧
  State.reset.cfg.wf = true

/-- The reset input, whatever the state: every register takes its reset value, a running operation is abandoned, irq is 0, and
the parameters and what is still to come from outside are kept (R114). -/
def Obligations.ResetInputResetsEveryRegister : Prop :=
  ∀ (s : State) (rest : List Input), s.turn = .host → s.inputs = .assertReset :: rest →
    ∃ t, step s = .next t ∧
      (∀ r, t.readReg r = (match r with
        | .id => 0x42363401 | .inCap => BitVec.ofNat 32 s.cfg.inCap | .outCap => BitVec.ofNat 32 s.cfg.outCap | _ => 0)) ∧
      t.status.busy = false ∧ engineTurn t = t ∧ t.irq = false ∧ t.resetAsserted = true ∧ t.cfg = s.cfg ∧ t.inputs = rest

/-- R15 to R18 and R37: a 32-bit READ at a register's offset gets OKAY and the register's value and changes nothing: ID, INCAP,
OUTCAP the constants, CMD 0, and the rest what they hold. -/
def Obligations.RegisterReadsReturnTheirValues : Prop :=
  ∀ s : State,
    transact (.read 0x000 .four) s = .next (s.respond { resp := .okay, rdata := some 0x42363401 }) ∧
    transact (.read 0x004 .four) s = .next (s.respond { resp := .okay, rdata := some (BitVec.ofNat 32 s.cfg.inCap) }) ∧
    transact (.read 0x008 .four) s = .next (s.respond { resp := .okay, rdata := some (BitVec.ofNat 32 s.cfg.outCap) }) ∧
    transact (.read 0x00C .four) s = .next (s.respond { resp := .okay, rdata := some 0x00000000 }) ∧
    transact (.read 0x010 .four) s = .next (s.respond { resp := .okay, rdata := some s.status.toWord }) ∧
    transact (.read 0x014 .four) s = .next (s.respond { resp := .okay, rdata := some s.inLen }) ∧
    transact (.read 0x018 .four) s = .next (s.respond { resp := .okay, rdata := some s.outLen }) ∧
    transact (.read 0x01C .four) s = .next (s.respond { resp := .okay, rdata := some s.errPos }) ∧
    transact (.read 0x020 .four) s = .next (s.respond { resp := .okay, rdata := some s.consumed }) ∧
    transact (.read 0x024 .four) s = .next (s.respond { resp := .okay, rdata := some s.resultInfo.toWord }) ∧
    transact (.read 0x028 .four) s = .next (s.respond { resp := .okay, rdata := some s.irqEn.toWord })

/-- The bits of STATUS, RESULT_INFO and IRQ_EN as the host reads them: each field in its place and every reserved bit 0
(R19, R28, R29, R30). -/
def Obligations.RegisterFieldsStandInTheirBits : Prop :=
  (∀ st : Status,
    st.toWord.getLsbD 0 = st.busy ∧ st.toWord.getLsbD 1 = st.done ∧ st.toWord.getLsbD 2 = st.err ∧
    st.toWord.getLsbD 3 = st.haz ∧
    st.toWord.extractLsb' 4 4 = (match st.errCode with
      | .none => 0#4 | .invalidSymbol => 1#4 | .badLength => 2#4 | .badCommand => 3#4) ∧
    st.toWord.getLsbD 8 = decide (st.lastOp = .decode) ∧ st.toWord.extractLsb' 9 23 = 0) ∧
  (∀ ri : ResultInfo,
    ri.toWord.extractLsb' 0 2 = ri.encPad ∧ ri.toWord.extractLsb' 2 6 = 0 ∧ ri.toWord.extractLsb' 8 2 = ri.decTail ∧
    ri.toWord.extractLsb' 10 6 = 0 ∧ ri.toWord.getLsbD 16 = ri.padFound ∧ ri.toWord.extractLsb' 17 15 = 0) ∧
  ∀ ie : IrqEn,
    ie.toWord.getLsbD 0 = ie.doneIe ∧ ie.toWord.getLsbD 1 = ie.errIe ∧ ie.toWord.getLsbD 2 = ie.hazIe ∧
    ie.toWord.extractLsb' 3 29 = 0

/-- R36: a transaction gets SLVERR exactly under one of its four conditions; it then changes nothing of B64C (nor the choices
made) and a READ returns rdata 0; every other transaction gets OKAY. Every transaction is answered. -/
def Obligations.SlverrExactlyOnBadTransactions : Prop :=
  ∀ (s : State) (x : Txn), s.cfg.wf = true → ∃ t r, transact x s = .next t ∧ t.resp = some r ∧
    (r.resp = .slverr ↔ slverrCondition s.cfg x.offset x.bytes) ∧
    (r.resp = .slverr → t = s.respond r ∧ ∀ off size, x = .read off size → r.rdata = some 0)

/-- R38: a legal WRITE to a read-only register or to the OUT window gets OKAY and changes nothing. -/
def Obligations.WritesToReadOnlyStateAreIgnored : Prop :=
  ∀ (s : State) (w : Word),
    (∀ off : Offset, off ∈ [0x000, 0x004, 0x008, 0x010, 0x018, 0x01C, 0x020, 0x024] →
      transact (.write off .four w) s = .next (s.respond { resp := .okay, rdata := none })) ∧
    (∀ (off : Offset) (size : Size), 0x20000 ≤ off.toNat → ¬ slverrCondition s.cfg off.toNat size.bytes →
      transact (.write off size w) s = .next (s.respond { resp := .okay, rdata := none }))

/-- R22: a write to IN_LEN stores all 32 bits, which read back unchanged, busy or not and legal or not, and does not touch the
running operation. -/
def Obligations.InLenStoresEveryWrite : Prop :=
  ∀ (s : State) (w : Word), ∃ t,
    t = { s with inLen := w, resp := some { resp := .okay, rdata := none } } ∧
    transact (.write 0x014 .four w) s = .next t ∧
    transact (.read 0x014 .four) t = .next (t.respond { resp := .okay, rdata := some w }) ∧
    t.pendingOut = s.pendingOut ∧ engineTurn t = { engineTurn s with inLen := w, resp := t.resp }

/-- R29: a write to IRQ_EN stores bits 2:0 and ignores the others, which read 0, busy or not; nothing else changes. -/
def Obligations.IrqEnStoresItsThreeBits : Prop :=
  ∀ (s : State) (w : Word), ∃ t,
    transact (.write 0x028 .four w) s = .next t ∧ t.readReg .irqEn = w &&& 0x00000007 ∧
    t = { s with irqEn := t.irqEn, resp := some { resp := .okay, rdata := none } }

/-- A legal WRITE to the IN window while idle stores its bytes little-endian and changes no other byte and no register
(R42, R39). -/
def Obligations.InWindowWriteStoresItsBytes : Prop :=
  ∀ (s : State) (off : Offset) (size : Size) (w : Word), s.status.busy = false →
    0x10000 ≤ off.toNat → off.toNat < 0x20000 → ¬ slverrCondition s.cfg off.toNat size.bytes →
    ∃ t, transact (.write off size w) s = .next t ∧
      (∀ k < size.bytes, t.byteAt .inMem (off.toNat - 0x10000 + k) = w.extractLsb' (8 * k) 8) ∧
      (∀ i : Nat, ¬ (off.toNat - 0x10000 ≤ i ∧ i < off.toNat - 0x10000 + size.bytes) →
        t.byteAt .inMem i = s.byteAt .inMem i) ∧
      t = { s with inMem := t.inMem, resp := some { resp := .okay, rdata := none } }

/-- R118: a legal WRITE to the IN window while busy is dropped: no byte changes, HAZ becomes 1, the response is OKAY, and the
operation still reads the bytes it read. -/
def Obligations.InWindowWriteWhileBusyIsDropped : Prop :=
  ∀ (s : State) (off : Offset) (size : Size) (w : Word), s.status.busy = true →
    0x10000 ≤ off.toNat → off.toNat < 0x20000 → ¬ slverrCondition s.cfg off.toNat size.bytes →
    ∃ t, transact (.write off size w) s = .next t ∧
      t = { s with status := { s.status with haz := true }, resp := some { resp := .okay, rdata := none } } ∧
      t.engineData = s.engineData ∧ ∀ i : Nat, t.byteAt .inMem i = s.byteAt .inMem i

/-- A legal READ of the IN window returns its bytes little-endian with zeros above, whatever BUSY is, and changes nothing
(R42, R39, R34). -/
def Obligations.InWindowReadReturnsItsBytes : Prop :=
  ∀ (s : State) (off : Offset) (size : Size),
    0x10000 ≤ off.toNat → off.toNat < 0x20000 → ¬ slverrCondition s.cfg off.toNat size.bytes →
    ∃ d : Word, transact (.read off size) s = .next (s.respond { resp := .okay, rdata := some d }) ∧
      ∀ k < 4, d.extractLsb' (8 * k) 8 =
        (if k < size.bytes then s.byteAt .inMem (off.toNat - 0x10000 + k) else 0)

/-- A legal READ of the OUT window while idle returns its bytes little-endian with zeros above and changes nothing
(R43, R39, R34). -/
def Obligations.OutWindowReadReturnsItsBytes : Prop :=
  ∀ (s : State) (off : Offset) (size : Size), s.status.busy = false →
    0x20000 ≤ off.toNat → ¬ slverrCondition s.cfg off.toNat size.bytes →
    ∃ d : Word, transact (.read off size) s = .next (s.respond { resp := .okay, rdata := some d }) ∧
      ∀ k < 4, d.extractLsb' (8 * k) 8 =
        (if k < size.bytes then s.byteAt .outMem (off.toNat - 0x20000 + k) else 0)

/-- A legal READ of the OUT window while busy returns for each byte the value it holds or the value the running operation will
write there; a byte the operation will not write reads its old value, so a failing DECODE's bytes do; nothing of B64C changes
(R120). -/
def Obligations.OutWindowReadWhileBusyIsOldOrNew : Prop :=
  ∀ (s : State) (off : Offset) (size : Size), s.status.busy = true →
    0x20000 ≤ off.toNat → ¬ slverrCondition s.cfg off.toNat size.bytes →
    ∃ (t : State) (d : Word), transact (.read off size) s = .next t ∧
      t.resp = some { resp := .okay, rdata := some d } ∧ t.block = s.block ∧ t.inputs = s.inputs ∧ t.sched = s.sched ∧
      ∀ k < 4, if k < size.bytes then
          d.extractLsb' (8 * k) 8 = s.byteAt .outMem (off.toNat - 0x20000 + k) ∨
          s.pendingOut[off.toNat - 0x20000 + k]? = some (d.extractLsb' (8 * k) 8)
        else d.extractLsb' (8 * k) 8 = 0

/-- R101: irq is 1 exactly when a STATUS bit among DONE, ERR, HAZ and its IRQ_EN bit are both 1, as the host reads the two
registers; it is 0 after reset. -/
def Obligations.IrqIsEnabledStatus : Prop :=
  (∀ s : State, s.irq = true ↔ (s.readReg .status >>> 1) &&& s.readReg .irqEn ≠ 0) ∧
  State.reset.irq = false ∧ ∀ s : State, s.assertReset.irq = false

/-! ### Rules of the whole machine -/

/-- The invariant of the block holds at reset, in the reference configuration (log entry 3). -/
def Obligations.InvariantHoldsAtReset : Prop := State.reset.Inv

/-- Every step keeps the invariant of the block: the STATUS invariants of R20, the result registers' rules (R24 to R28), the
running length (R33), the buffers' canonical form and capacity (R32), and the reset values while reset is asserted (R114). -/
def Obligations.EveryStepKeepsTheInvariant : Prop :=
  ∀ s t : State, s.Inv → step s = .next t → t.Inv

/-- R20: every step keeps the STATUS invariants. -/
def Obligations.StatusInvariantsAreKept : Prop :=
  State.reset.StatusInv ∧ ∀ s t : State, s.StatusInv → step s = .next t → t.StatusInv

/-- HAZ is cleared by CLEAR and reset only, and set by a dropped write only: a write to the IN window, or to CMD of a word
that is neither NOP nor CLEAR, while BUSY = 1 (R19, R70, R106, R118). -/
def Obligations.HazChangesOnlyAsStated : Prop :=
  ∀ s t : State, step s = .next t →
    (s.status.haz = true → t.status.haz = true ∨ s.takes (.txn (.write 0x00C .four (encode .clear))) ∨
      s.takes .assertReset) ∧
    (s.status.haz = false → t.status.haz = true →
      s.status.busy = true ∧ ∃ off size w, s.takes (.txn (.write off size w)) ∧
        ((0x10000 ≤ off.toNat ∧ off.toNat < 0x20000) ∨
         (off = 0x00C ∧ size = .four ∧ w ≠ encode .nop ∧ w ≠ encode .clear)))

/-- IN_MEM changes only by a host write to that byte of the IN window while BUSY = 0, or by reset (R32, R45, R118): the engine
and the commands never write it. -/
def Obligations.InMemChangesOnlyByIdleHostWrites : Prop :=
  ∀ (s t : State) (i : Nat), step s = .next t → t.byteAt .inMem i ≠ s.byteAt .inMem i →
    s.takes .assertReset ∨
    (s.status.busy = false ∧ ∃ off size w, s.takes (.txn (.write off size w)) ∧
      off.toNat ≤ 0x10000 + i ∧ 0x10000 + i < off.toNat + size.bytes)

/-- OUT_MEM changes only below the running operation's result length, by its completion or by the CLEAR that aborts it, or by
reset; no host write changes it (R32, R38, R46, R121). -/
def Obligations.OutMemChangesOnlyByTheRunningResult : Prop :=
  ∀ (s t : State) (i : Nat), step s = .next t → t.byteAt .outMem i ≠ s.byteAt .outMem i →
    s.takes .assertReset ∨
    (s.status.busy = true ∧ t.status.busy = false ∧ s.pendingOut[i]? = some (t.byteAt .outMem i) ∧
      (s.turn = .engine ∨ s.takes (.txn (.write 0x00C .four (encode .clear)))))

/-- IN_LEN and IRQ_EN change only by their own host writes or by reset, CLEAR included, and the parameters never change
(R22, R29, R15 to R17). -/
def Obligations.ControlRegistersChangeOnlyByTheirWrites : Prop :=
  ∀ s t : State, step s = .next t → t.cfg = s.cfg ∧
    (t.inLen ≠ s.inLen → s.takes .assertReset ∨ ∃ w, s.takes (.txn (.write 0x014 .four w)) ∧ t.inLen = w) ∧
    (t.irqEn ≠ s.irqEn → s.takes .assertReset ∨ ∃ w, s.takes (.txn (.write 0x028 .four w)) ∧ t.irqEn = IrqEn.ofWord w)

/-- As long as one operation keeps running, whatever transactions come between, its latches, IN_MEM, OUT_MEM and the result it
will publish stay what they were: the bytes it reads are those IN_MEM held at acceptance (R45, R49). -/
def Obligations.RunningOperationIsFrozen : Prop :=
  ∀ s t : State, BusySteps s t →
    t.opL = s.opL ∧ t.nL = s.nL ∧ t.inMem = s.inMem ∧ t.outMem = s.outMem ∧ t.engineData = s.engineData ∧
    t.pendingOut = s.pendingOut

/-- Every accepted operation ends: from every busy state whose host keeps the reset protocol, the machine is idle after at most
one step more than the turns scheduled, whatever they and the inputs are (R125: weak fairness, which the empty schedule's
engine turn gives; log entry 1). -/
def Obligations.EveryOperationEnds : Prop :=
  ∀ s : State, s.status.busy = true → s.hostObeys = true →
    ∃ k ≤ s.sched.length + 1, ∃ t, core.run k s = .next t ∧ t.status.busy = false

/-- No step is stuck but the one the spec names: a step faults exactly when the host's turn brings a transaction or a POLL
while reset is asserted, and nothing is ever refused (R99, R114; 93_implementation_defined.md section 2). -/
def Obligations.StuckOnlyByTransactionsDuringReset : Prop :=
  ∀ s : State,
    (step s = .fault .transactionDuringReset ↔
      s.resetAsserted = true ∧
        ((∃ x, s.takes (.txn x)) ∨ ∃ off mask val, s.takes (.poll off mask val))) ∧
    (∀ r, step s ≠ .refused r)

/-- A host that keeps the reset protocol never gets stuck, and goes on keeping it. -/
def Obligations.ObedientHostNeverStuck : Prop :=
  ∀ s : State, s.hostObeys = true → ∀ k : Nat, ∃ t, core.run k s = .next t ∧ t.hostObeys = true

/-- When a host write to the IN window and the completion of a running ENCODE meet, both interleavings are admitted: write
first, it is dropped with HAZ and the result is that of the old bytes; completion first, it is performed and HAZ stays as it
was; the result registers are the same either way (R104, 95_test_vectors.md P4). -/
def Obligations.BothInterleavingsAreAdmitted : Prop :=
  ∀ (s : State) (rest : List Input) (off : Offset) (size : Size) (w : Word),
    s.status.busy = true → s.opL = .encode → s.resetAsserted = false →
    s.inputs = .txn (.write off size w) :: rest →
    0x10000 ≤ off.toNat → off.toNat < 0x20000 → ¬ slverrCondition s.cfg off.toNat size.bytes →
    ∃ a b, core.run 2 { s with sched := [.host, .engine] } = .next a ∧
      core.run 2 { s with sched := [.engine, .host] } = .next b ∧
      a.inMem = s.inMem ∧ a.status.haz = true ∧ b.status.haz = s.status.haz ∧
      (∀ k < size.bytes, b.byteAt .inMem (off.toNat - 0x10000 + k) = w.extractLsb' (8 * k) 8) ∧
      a.outMem = b.outMem ∧ a.outLen = b.outLen ∧ a.consumed = b.consumed ∧ a.resultInfo = b.resultInfo ∧
      a.status.done = true ∧ b.status.done = true ∧ a.status.busy = false ∧ b.status.busy = false

/-- WAIT ends: with no turn scheduled, a busy engine completes and the POLL of STATUS after it is left at once (R66,
R125; that the empty schedule gives the engine its turn is log entry 1). -/
def Obligations.WaitEndsWhenTheOperationDoes : Prop :=
  ∀ (s : State) (rest : List Input), s.status.busy = true → s.resetAsserted = false → s.sched = [] →
    s.inputs = wait :: rest →
    ∃ t, core.run 2 s = .next t ∧ t.status.busy = false ∧ t.inputs = rest ∧
      t.resp = some { resp := .okay, rdata := some (t.readReg .status) }
end

