-- ==== Sys2Proof/Laws/Codec.lean ====
section
/-! SUPPORT. The laws of the transform's stages: one equation per form of a definition, and what packing and slicing do to
bits. -/

namespace Sys2Proof.Machine

/-! ### Bits of the accumulators -/

/-- Bit `j` of slice `k` is bit `18 - 6k + j` of the accumulator (R79). -/
theorem getLsbD_slice (acc : Acc) (k j : Nat) (hj : j < 6) :
    (slice acc k).getLsbD j = acc.getLsbD (18 - 6 * k + j) := by
  have h : ∀ i : Fin 6, (0x3F#6)[i.val]'i.isLt = true := by decide
  simp only [slice, BitVec.getLsbD_setWidth, BitVec.getLsbD_and, BitVec.getLsbD_ushiftRight, hj]
  simp
  exact fun _ => h ⟨j, hj⟩

/-- Bit `j` of byte slice `k` is bit `16 - 8k + j` of the accumulator (R91). -/
theorem getLsbD_byteSlice (acc : Acc) (k j : Nat) (hj : j < 8) :
    (byteSlice acc k).getLsbD j = acc.getLsbD (16 - 8 * k + j) := by
  have h : ∀ i : Fin 8, (0xFF#8)[i.val]'i.isLt = true := by decide
  simp only [byteSlice, BitVec.getLsbD_setWidth, BitVec.getLsbD_and, BitVec.getLsbD_ushiftRight, hj]
  simp
  exact fun _ => h ⟨j, hj⟩

/-- The bits of a packed group of bytes (R78). -/
theorem getLsbD_packBytes (b0 b1 b2 : Byte) (j : Nat) :
    (packBytes b0 b1 b2).getLsbD j =
      if j < 8 then b2.getLsbD j else if j < 16 then b1.getLsbD (j - 8) else b0.getLsbD (j - 16) := by
  simp only [packBytes, BitVec.getLsbD_append]
  by_cases h : j < 8
  · simp [h]
  · by_cases h' : j < 16
    · simp [h, h', show j - 8 < 8 by omega]
    · simp [h, h', show ¬ j - 8 < 8 by omega, show j - 8 - 8 = j - 16 by omega]

/-- The bits of a packed group of symbol values (R91). -/
theorem getLsbD_packSyms (v0 v1 v2 v3 : Sym) (j : Nat) :
    (packSyms v0 v1 v2 v3).getLsbD j =
      if j < 6 then v3.getLsbD j else if j < 12 then v2.getLsbD (j - 6)
      else if j < 18 then v1.getLsbD (j - 12) else v0.getLsbD (j - 18) := by
  simp only [packSyms, BitVec.getLsbD_append]
  by_cases h : j < 6
  · simp [h]
  · by_cases h' : j < 12
    · simp [h, h', show j - 6 < 6 by omega]
    · by_cases h'' : j < 18
      · simp [h, h', h'', show ¬ j - 6 < 6 by omega, show j - 6 - 6 = j - 12 by omega, show j - 12 < 6 by omega]
      · simp [h, h', h'', show ¬ j - 6 < 6 by omega, show ¬ j - 6 - 6 < 6 by omega,
          show j - 6 - 6 - 6 = j - 18 by omega]

/-- Packing the four slices of an accumulator gives it back. -/
theorem packSyms_slices (acc : Acc) : packSyms (slice acc 0) (slice acc 1) (slice acc 2) (slice acc 3) = acc := by
  apply BitVec.eq_of_getLsbD_eq
  intro j hj
  rw [getLsbD_packSyms]
  split
  · rw [getLsbD_slice _ _ _ ‹_›]; simp
  · split
    · rw [getLsbD_slice _ _ _ (by omega)]; congr 1; omega
    · split
      · rw [getLsbD_slice _ _ _ (by omega)]; congr 1; omega
      · rw [getLsbD_slice _ _ _ (by omega)]; congr 1; omega

/-- The three bytes of a packed group of bytes are the bytes. -/
theorem byteSlices_packBytes (b0 b1 b2 : Byte) :
    byteSlice (packBytes b0 b1 b2) 0 = b0 ∧ byteSlice (packBytes b0 b1 b2) 1 = b1 ∧
    byteSlice (packBytes b0 b1 b2) 2 = b2 := by
  refine ⟨?_, ?_, ?_⟩ <;> apply BitVec.eq_of_getLsbD_eq <;> intro j hj <;>
    rw [getLsbD_byteSlice _ _ _ hj, getLsbD_packBytes]
  · rw [if_neg (by omega), if_neg (by omega)]; congr 1; omega
  · rw [if_neg (by omega), if_pos (by omega)]; congr 1; omega
  · rw [if_pos (by omega)]; congr 1; omega

/-! ### Tables -/

/-- A symbol's code is never the padding symbol, and it is not INVALID. -/
theorem rev_cases (c : Byte) : (∃ v, rev c = .symbol v) ∨ (rev c = .padmark ∧ c = pad) ∨ rev c = .invalid := by
  unfold rev
  repeat' split
  all_goals first | exact .inl ⟨_, rfl⟩ | exact .inr (.inl ⟨rfl, ‹_›⟩) | exact .inr (.inr rfl)

theorem rev_pad : rev pad = .padmark := by decide

/-! ### Encode, group by group -/

@[simp] theorem encodeBytes_nil : encodeBytes [] = [] := rfl
@[simp] theorem encodeBytes_one (b0 : Byte) : encodeBytes [b0] = groupChars 1 (packBytes b0 0 0) := rfl
@[simp] theorem encodeBytes_two (b0 b1 : Byte) : encodeBytes [b0, b1] = groupChars 2 (packBytes b0 b1 0) := rfl
@[simp] theorem encodeBytes_group (b0 b1 b2 : Byte) (bs : List Byte) :
    encodeBytes (b0 :: b1 :: b2 :: bs) = groupChars 3 (packBytes b0 b1 b2) ++ encodeBytes bs := rfl

/-- A group gives four characters. -/
@[simp] theorem length_groupChars (r : Nat) (acc : Acc) : (groupChars r acc).length = 4 := rfl

/-! ### Decode -/

@[simp] theorem stopIndex_nil : stopIndex [] = 0 := rfl
theorem stopIndex_cons (c : Byte) (cs : List Byte) :
    stopIndex (c :: cs) = if c = pad then 0 else stopIndex cs + 1 := rfl

@[simp] theorem firstInvalid_nil : firstInvalid [] = none := rfl
theorem firstInvalid_cons (c : Byte) (cs : List Byte) :
    firstInvalid (c :: cs) = if rev c = .invalid then some 0 else (firstInvalid cs).map (· + 1) := rfl

@[simp] theorem unpack_group (v0 v1 v2 v3 : Sym) (vs : List Sym) :
    unpack (v0 :: v1 :: v2 :: v3 :: vs) =
      byteSlice (packSyms v0 v1 v2 v3) 0 :: byteSlice (packSyms v0 v1 v2 v3) 1 ::
        byteSlice (packSyms v0 v1 v2 v3) 2 :: unpack vs := rfl

/-- The stop index never passes the end. -/
theorem stopIndex_le (t : List Byte) : stopIndex t ≤ t.length := by
  induction t with
  | nil => simp
  | cons c cs ih => rw [stopIndex_cons]; split <;> simp only [List.length_cons] <;> omega

/-- The two results of a decode (R93). -/
theorem decodeChars_cases (t : List Byte) :
    (∃ j, firstInvalid (t.take (stopIndex t)) = some j ∧ decodeChars t = .invalidSymbol j) ∨
    (firstInvalid (t.take (stopIndex t)) = none ∧
      decodeChars t = .ok (unpack ((t.take (stopIndex t)).filterMap symbolOf)) (stopIndex t)) := by
  unfold decodeChars
  cases h : firstInvalid (t.take (stopIndex t)) with
  | some j => exact .inl ⟨j, rfl, by simp [h]⟩
  | none => exact .inr ⟨rfl, by simp [h]⟩

end Sys2Proof.Machine
end

