-- ==== Sys2Proof/Laws/State.lean ====
section
/-! SUPPORT. One lemma per field per update of State: what the field is after it, so that no later proof unfolds a record
update. -/

namespace Sys2Proof.Machine

section Respond
variable (s : State) (r : Response)

@[simp] theorem respond_cfg : (s.respond r).cfg = s.cfg := rfl
@[simp] theorem respond_status : (s.respond r).status = s.status := rfl
@[simp] theorem respond_inLen : (s.respond r).inLen = s.inLen := rfl
@[simp] theorem respond_outLen : (s.respond r).outLen = s.outLen := rfl
@[simp] theorem respond_errPos : (s.respond r).errPos = s.errPos := rfl
@[simp] theorem respond_consumed : (s.respond r).consumed = s.consumed := rfl
@[simp] theorem respond_resultInfo : (s.respond r).resultInfo = s.resultInfo := rfl
@[simp] theorem respond_irqEn : (s.respond r).irqEn = s.irqEn := rfl
@[simp] theorem respond_opL : (s.respond r).opL = s.opL := rfl
@[simp] theorem respond_nL : (s.respond r).nL = s.nL := rfl
@[simp] theorem respond_inMem : (s.respond r).inMem = s.inMem := rfl
@[simp] theorem respond_outMem : (s.respond r).outMem = s.outMem := rfl
@[simp] theorem respond_resetAsserted : (s.respond r).resetAsserted = s.resetAsserted := rfl
@[simp] theorem respond_inputs : (s.respond r).inputs = s.inputs := rfl
@[simp] theorem respond_sched : (s.respond r).sched = s.sched := rfl
@[simp] theorem respond_resp : (s.respond r).resp = some r := rfl
@[simp] theorem respond_epoch : (s.respond r).epoch = s.epoch := rfl
@[simp] theorem respond_draws : (s.respond r).draws = s.draws := rfl

end Respond

section SetInputs
variable (s : State) (rest : List Input)

@[simp] theorem setInputs_cfg : (s.setInputs rest).cfg = s.cfg := rfl
@[simp] theorem setInputs_status : (s.setInputs rest).status = s.status := rfl
@[simp] theorem setInputs_inLen : (s.setInputs rest).inLen = s.inLen := rfl
@[simp] theorem setInputs_outLen : (s.setInputs rest).outLen = s.outLen := rfl
@[simp] theorem setInputs_errPos : (s.setInputs rest).errPos = s.errPos := rfl
@[simp] theorem setInputs_consumed : (s.setInputs rest).consumed = s.consumed := rfl
@[simp] theorem setInputs_resultInfo : (s.setInputs rest).resultInfo = s.resultInfo := rfl
@[simp] theorem setInputs_irqEn : (s.setInputs rest).irqEn = s.irqEn := rfl
@[simp] theorem setInputs_opL : (s.setInputs rest).opL = s.opL := rfl
@[simp] theorem setInputs_nL : (s.setInputs rest).nL = s.nL := rfl
@[simp] theorem setInputs_inMem : (s.setInputs rest).inMem = s.inMem := rfl
@[simp] theorem setInputs_outMem : (s.setInputs rest).outMem = s.outMem := rfl
@[simp] theorem setInputs_resetAsserted : (s.setInputs rest).resetAsserted = s.resetAsserted := rfl
@[simp] theorem setInputs_inputs : (s.setInputs rest).inputs = rest := rfl
@[simp] theorem setInputs_sched : (s.setInputs rest).sched = s.sched := rfl
@[simp] theorem setInputs_resp : (s.setInputs rest).resp = s.resp := rfl
@[simp] theorem setInputs_epoch : (s.setInputs rest).epoch = s.epoch := rfl
@[simp] theorem setInputs_draws : (s.setInputs rest).draws = s.draws := rfl

end SetInputs

section TakeTurn
variable (s : State)

@[simp] theorem takeTurn_cfg : (s.takeTurn).cfg = s.cfg := rfl
@[simp] theorem takeTurn_status : (s.takeTurn).status = s.status := rfl
@[simp] theorem takeTurn_inLen : (s.takeTurn).inLen = s.inLen := rfl
@[simp] theorem takeTurn_outLen : (s.takeTurn).outLen = s.outLen := rfl
@[simp] theorem takeTurn_errPos : (s.takeTurn).errPos = s.errPos := rfl
@[simp] theorem takeTurn_consumed : (s.takeTurn).consumed = s.consumed := rfl
@[simp] theorem takeTurn_resultInfo : (s.takeTurn).resultInfo = s.resultInfo := rfl
@[simp] theorem takeTurn_irqEn : (s.takeTurn).irqEn = s.irqEn := rfl
@[simp] theorem takeTurn_opL : (s.takeTurn).opL = s.opL := rfl
@[simp] theorem takeTurn_nL : (s.takeTurn).nL = s.nL := rfl
@[simp] theorem takeTurn_inMem : (s.takeTurn).inMem = s.inMem := rfl
@[simp] theorem takeTurn_outMem : (s.takeTurn).outMem = s.outMem := rfl
@[simp] theorem takeTurn_resetAsserted : (s.takeTurn).resetAsserted = s.resetAsserted := rfl
@[simp] theorem takeTurn_inputs : (s.takeTurn).inputs = s.inputs := rfl
@[simp] theorem takeTurn_sched : (s.takeTurn).sched = s.sched.tail := rfl
@[simp] theorem takeTurn_resp : (s.takeTurn).resp = s.resp := rfl
@[simp] theorem takeTurn_epoch : (s.takeTurn).epoch = s.epoch := rfl
@[simp] theorem takeTurn_draws : (s.takeTurn).draws = s.draws := rfl

end TakeTurn

section WriteIn
variable (s : State) (a : Nat) (bs : List Byte)

@[simp] theorem writeIn_cfg : (s.writeIn a bs).cfg = s.cfg := rfl
@[simp] theorem writeIn_status : (s.writeIn a bs).status = s.status := rfl
@[simp] theorem writeIn_inLen : (s.writeIn a bs).inLen = s.inLen := rfl
@[simp] theorem writeIn_outLen : (s.writeIn a bs).outLen = s.outLen := rfl
@[simp] theorem writeIn_errPos : (s.writeIn a bs).errPos = s.errPos := rfl
@[simp] theorem writeIn_consumed : (s.writeIn a bs).consumed = s.consumed := rfl
@[simp] theorem writeIn_resultInfo : (s.writeIn a bs).resultInfo = s.resultInfo := rfl
@[simp] theorem writeIn_irqEn : (s.writeIn a bs).irqEn = s.irqEn := rfl
@[simp] theorem writeIn_opL : (s.writeIn a bs).opL = s.opL := rfl
@[simp] theorem writeIn_nL : (s.writeIn a bs).nL = s.nL := rfl
@[simp] theorem writeIn_inMem : (s.writeIn a bs).inMem = s.inMem.setList a bs := rfl
@[simp] theorem writeIn_outMem : (s.writeIn a bs).outMem = s.outMem := rfl
@[simp] theorem writeIn_resetAsserted : (s.writeIn a bs).resetAsserted = s.resetAsserted := rfl
@[simp] theorem writeIn_inputs : (s.writeIn a bs).inputs = s.inputs := rfl
@[simp] theorem writeIn_sched : (s.writeIn a bs).sched = s.sched := rfl
@[simp] theorem writeIn_resp : (s.writeIn a bs).resp = s.resp := rfl
@[simp] theorem writeIn_epoch : (s.writeIn a bs).epoch = s.epoch := rfl
@[simp] theorem writeIn_draws : (s.writeIn a bs).draws = s.draws := rfl

end WriteIn

section WriteOut
variable (s : State) (a : Nat) (bs : List Byte)

@[simp] theorem writeOut_cfg : (s.writeOut a bs).cfg = s.cfg := rfl
@[simp] theorem writeOut_status : (s.writeOut a bs).status = s.status := rfl
@[simp] theorem writeOut_inLen : (s.writeOut a bs).inLen = s.inLen := rfl
@[simp] theorem writeOut_outLen : (s.writeOut a bs).outLen = s.outLen := rfl
@[simp] theorem writeOut_errPos : (s.writeOut a bs).errPos = s.errPos := rfl
@[simp] theorem writeOut_consumed : (s.writeOut a bs).consumed = s.consumed := rfl
@[simp] theorem writeOut_resultInfo : (s.writeOut a bs).resultInfo = s.resultInfo := rfl
@[simp] theorem writeOut_irqEn : (s.writeOut a bs).irqEn = s.irqEn := rfl
@[simp] theorem writeOut_opL : (s.writeOut a bs).opL = s.opL := rfl
@[simp] theorem writeOut_nL : (s.writeOut a bs).nL = s.nL := rfl
@[simp] theorem writeOut_inMem : (s.writeOut a bs).inMem = s.inMem := rfl
@[simp] theorem writeOut_outMem : (s.writeOut a bs).outMem = s.outMem.setList a bs := rfl
@[simp] theorem writeOut_resetAsserted : (s.writeOut a bs).resetAsserted = s.resetAsserted := rfl
@[simp] theorem writeOut_inputs : (s.writeOut a bs).inputs = s.inputs := rfl
@[simp] theorem writeOut_sched : (s.writeOut a bs).sched = s.sched := rfl
@[simp] theorem writeOut_resp : (s.writeOut a bs).resp = s.resp := rfl
@[simp] theorem writeOut_epoch : (s.writeOut a bs).epoch = s.epoch := rfl
@[simp] theorem writeOut_draws : (s.writeOut a bs).draws = s.draws := rfl

end WriteOut

section ClearResults
variable (s : State)

@[simp] theorem clearResults_cfg : (s.clearResults).cfg = s.cfg := rfl
@[simp] theorem clearResults_status : (s.clearResults).status = s.status := rfl
@[simp] theorem clearResults_inLen : (s.clearResults).inLen = s.inLen := rfl
@[simp] theorem clearResults_outLen : (s.clearResults).outLen = 0 := rfl
@[simp] theorem clearResults_errPos : (s.clearResults).errPos = 0 := rfl
@[simp] theorem clearResults_consumed : (s.clearResults).consumed = 0 := rfl
@[simp] theorem clearResults_resultInfo : (s.clearResults).resultInfo = ResultInfo.reset := rfl
@[simp] theorem clearResults_irqEn : (s.clearResults).irqEn = s.irqEn := rfl
@[simp] theorem clearResults_opL : (s.clearResults).opL = s.opL := rfl
@[simp] theorem clearResults_nL : (s.clearResults).nL = s.nL := rfl
@[simp] theorem clearResults_inMem : (s.clearResults).inMem = s.inMem := rfl
@[simp] theorem clearResults_outMem : (s.clearResults).outMem = s.outMem := rfl
@[simp] theorem clearResults_resetAsserted : (s.clearResults).resetAsserted = s.resetAsserted := rfl
@[simp] theorem clearResults_inputs : (s.clearResults).inputs = s.inputs := rfl
@[simp] theorem clearResults_sched : (s.clearResults).sched = s.sched := rfl
@[simp] theorem clearResults_resp : (s.clearResults).resp = s.resp := rfl
@[simp] theorem clearResults_epoch : (s.clearResults).epoch = s.epoch := rfl
@[simp] theorem clearResults_draws : (s.clearResults).draws = s.draws := rfl

end ClearResults

section Accept
variable (s : State) (op : Op)

@[simp] theorem accept_cfg : (s.accept op).cfg = s.cfg := rfl
@[simp] theorem accept_status : (s.accept op).status = s.status.accepted op := rfl
@[simp] theorem accept_inLen : (s.accept op).inLen = s.inLen := rfl
@[simp] theorem accept_outLen : (s.accept op).outLen = 0 := rfl
@[simp] theorem accept_errPos : (s.accept op).errPos = 0 := rfl
@[simp] theorem accept_consumed : (s.accept op).consumed = 0 := rfl
@[simp] theorem accept_resultInfo : (s.accept op).resultInfo = ResultInfo.reset := rfl
@[simp] theorem accept_irqEn : (s.accept op).irqEn = s.irqEn := rfl
@[simp] theorem accept_opL : (s.accept op).opL = op := rfl
@[simp] theorem accept_nL : (s.accept op).nL = s.inLen.toNat := rfl
@[simp] theorem accept_inMem : (s.accept op).inMem = s.inMem := rfl
@[simp] theorem accept_outMem : (s.accept op).outMem = s.outMem := rfl
@[simp] theorem accept_resetAsserted : (s.accept op).resetAsserted = s.resetAsserted := rfl
@[simp] theorem accept_inputs : (s.accept op).inputs = s.inputs := rfl
@[simp] theorem accept_sched : (s.accept op).sched = s.sched := rfl
@[simp] theorem accept_resp : (s.accept op).resp = s.resp := rfl
@[simp] theorem accept_epoch : (s.accept op).epoch = s.epoch := rfl
@[simp] theorem accept_draws : (s.accept op).draws = s.draws := rfl

end Accept

section RejectLength
variable (s : State) (op : Op)

@[simp] theorem rejectLength_cfg : (s.rejectLength op).cfg = s.cfg := rfl
@[simp] theorem rejectLength_status : (s.rejectLength op).status = s.status.rejected .badLength op := rfl
@[simp] theorem rejectLength_inLen : (s.rejectLength op).inLen = s.inLen := rfl
@[simp] theorem rejectLength_outLen : (s.rejectLength op).outLen = 0 := rfl
@[simp] theorem rejectLength_errPos : (s.rejectLength op).errPos = 0 := rfl
@[simp] theorem rejectLength_consumed : (s.rejectLength op).consumed = 0 := rfl
@[simp] theorem rejectLength_resultInfo : (s.rejectLength op).resultInfo = ResultInfo.reset := rfl
@[simp] theorem rejectLength_irqEn : (s.rejectLength op).irqEn = s.irqEn := rfl
@[simp] theorem rejectLength_opL : (s.rejectLength op).opL = s.opL := rfl
@[simp] theorem rejectLength_nL : (s.rejectLength op).nL = s.nL := rfl
@[simp] theorem rejectLength_inMem : (s.rejectLength op).inMem = s.inMem := rfl
@[simp] theorem rejectLength_outMem : (s.rejectLength op).outMem = s.outMem := rfl
@[simp] theorem rejectLength_resetAsserted : (s.rejectLength op).resetAsserted = s.resetAsserted := rfl
@[simp] theorem rejectLength_inputs : (s.rejectLength op).inputs = s.inputs := rfl
@[simp] theorem rejectLength_sched : (s.rejectLength op).sched = s.sched := rfl
@[simp] theorem rejectLength_resp : (s.rejectLength op).resp = s.resp := rfl
@[simp] theorem rejectLength_epoch : (s.rejectLength op).epoch = s.epoch := rfl
@[simp] theorem rejectLength_draws : (s.rejectLength op).draws = s.draws := rfl

end RejectLength

section RejectCommand
variable (s : State)

@[simp] theorem rejectCommand_cfg : (s.rejectCommand).cfg = s.cfg := rfl
@[simp] theorem rejectCommand_status : (s.rejectCommand).status = s.status.rejected .badCommand s.status.lastOp := rfl
@[simp] theorem rejectCommand_inLen : (s.rejectCommand).inLen = s.inLen := rfl
@[simp] theorem rejectCommand_outLen : (s.rejectCommand).outLen = 0 := rfl
@[simp] theorem rejectCommand_errPos : (s.rejectCommand).errPos = 0 := rfl
@[simp] theorem rejectCommand_consumed : (s.rejectCommand).consumed = 0 := rfl
@[simp] theorem rejectCommand_resultInfo : (s.rejectCommand).resultInfo = ResultInfo.reset := rfl
@[simp] theorem rejectCommand_irqEn : (s.rejectCommand).irqEn = s.irqEn := rfl
@[simp] theorem rejectCommand_opL : (s.rejectCommand).opL = s.opL := rfl
@[simp] theorem rejectCommand_nL : (s.rejectCommand).nL = s.nL := rfl
@[simp] theorem rejectCommand_inMem : (s.rejectCommand).inMem = s.inMem := rfl
@[simp] theorem rejectCommand_outMem : (s.rejectCommand).outMem = s.outMem := rfl
@[simp] theorem rejectCommand_resetAsserted : (s.rejectCommand).resetAsserted = s.resetAsserted := rfl
@[simp] theorem rejectCommand_inputs : (s.rejectCommand).inputs = s.inputs := rfl
@[simp] theorem rejectCommand_sched : (s.rejectCommand).sched = s.sched := rfl
@[simp] theorem rejectCommand_resp : (s.rejectCommand).resp = s.resp := rfl
@[simp] theorem rejectCommand_epoch : (s.rejectCommand).epoch = s.epoch := rfl
@[simp] theorem rejectCommand_draws : (s.rejectCommand).draws = s.draws := rfl

end RejectCommand

section Drop
variable (s : State)

@[simp] theorem drop_cfg : (s.drop).cfg = s.cfg := rfl
@[simp] theorem drop_status : (s.drop).status = s.status.dropped := rfl
@[simp] theorem drop_inLen : (s.drop).inLen = s.inLen := rfl
@[simp] theorem drop_outLen : (s.drop).outLen = s.outLen := rfl
@[simp] theorem drop_errPos : (s.drop).errPos = s.errPos := rfl
@[simp] theorem drop_consumed : (s.drop).consumed = s.consumed := rfl
@[simp] theorem drop_resultInfo : (s.drop).resultInfo = s.resultInfo := rfl
@[simp] theorem drop_irqEn : (s.drop).irqEn = s.irqEn := rfl
@[simp] theorem drop_opL : (s.drop).opL = s.opL := rfl
@[simp] theorem drop_nL : (s.drop).nL = s.nL := rfl
@[simp] theorem drop_inMem : (s.drop).inMem = s.inMem := rfl
@[simp] theorem drop_outMem : (s.drop).outMem = s.outMem := rfl
@[simp] theorem drop_resetAsserted : (s.drop).resetAsserted = s.resetAsserted := rfl
@[simp] theorem drop_inputs : (s.drop).inputs = s.inputs := rfl
@[simp] theorem drop_sched : (s.drop).sched = s.sched := rfl
@[simp] theorem drop_resp : (s.drop).resp = s.resp := rfl
@[simp] theorem drop_epoch : (s.drop).epoch = s.epoch := rfl
@[simp] theorem drop_draws : (s.drop).draws = s.draws := rfl

end Drop

section Abort
variable (s : State)

@[simp] theorem abort_cfg : (s.abort).cfg = s.cfg := rfl
@[simp] theorem abort_status : (s.abort).status = s.status := rfl
@[simp] theorem abort_inLen : (s.abort).inLen = s.inLen := rfl
@[simp] theorem abort_outLen : (s.abort).outLen = s.outLen := rfl
@[simp] theorem abort_errPos : (s.abort).errPos = s.errPos := rfl
@[simp] theorem abort_consumed : (s.abort).consumed = s.consumed := rfl
@[simp] theorem abort_resultInfo : (s.abort).resultInfo = s.resultInfo := rfl
@[simp] theorem abort_irqEn : (s.abort).irqEn = s.irqEn := rfl
@[simp] theorem abort_opL : (s.abort).opL = s.opL := rfl
@[simp] theorem abort_nL : (s.abort).nL = s.nL := rfl
@[simp] theorem abort_inMem : (s.abort).inMem = s.inMem := rfl
@[simp] theorem abort_outMem : (s.abort).outMem = s.outMem.setList 0 s.abortBytes := rfl
@[simp] theorem abort_resetAsserted : (s.abort).resetAsserted = s.resetAsserted := rfl
@[simp] theorem abort_inputs : (s.abort).inputs = s.inputs := rfl
@[simp] theorem abort_sched : (s.abort).sched = s.sched := rfl
@[simp] theorem abort_resp : (s.abort).resp = s.resp := rfl
@[simp] theorem abort_epoch : (s.abort).epoch = s.epoch := rfl
@[simp] theorem abort_draws : (s.abort).draws = s.draws + s.pendingOut.length := rfl

end Abort

section ClearStatus
variable (s : State)

@[simp] theorem clearStatus_cfg : (s.clearStatus).cfg = s.cfg := rfl
@[simp] theorem clearStatus_status : (s.clearStatus).status = Status.reset := rfl
@[simp] theorem clearStatus_inLen : (s.clearStatus).inLen = s.inLen := rfl
@[simp] theorem clearStatus_outLen : (s.clearStatus).outLen = 0 := rfl
@[simp] theorem clearStatus_errPos : (s.clearStatus).errPos = 0 := rfl
@[simp] theorem clearStatus_consumed : (s.clearStatus).consumed = 0 := rfl
@[simp] theorem clearStatus_resultInfo : (s.clearStatus).resultInfo = ResultInfo.reset := rfl
@[simp] theorem clearStatus_irqEn : (s.clearStatus).irqEn = s.irqEn := rfl
@[simp] theorem clearStatus_opL : (s.clearStatus).opL = s.opL := rfl
@[simp] theorem clearStatus_nL : (s.clearStatus).nL = s.nL := rfl
@[simp] theorem clearStatus_inMem : (s.clearStatus).inMem = s.inMem := rfl
@[simp] theorem clearStatus_outMem : (s.clearStatus).outMem = s.outMem := rfl
@[simp] theorem clearStatus_resetAsserted : (s.clearStatus).resetAsserted = s.resetAsserted := rfl
@[simp] theorem clearStatus_inputs : (s.clearStatus).inputs = s.inputs := rfl
@[simp] theorem clearStatus_sched : (s.clearStatus).sched = s.sched := rfl
@[simp] theorem clearStatus_resp : (s.clearStatus).resp = s.resp := rfl
@[simp] theorem clearStatus_epoch : (s.clearStatus).epoch = s.epoch := rfl
@[simp] theorem clearStatus_draws : (s.clearStatus).draws = s.draws := rfl

end ClearStatus

section AssertReset
variable (s : State)

@[simp] theorem assertReset_cfg : (s.assertReset).cfg = s.cfg := rfl
@[simp] theorem assertReset_status : (s.assertReset).status = Status.reset := rfl
@[simp] theorem assertReset_inLen : (s.assertReset).inLen = 0 := rfl
@[simp] theorem assertReset_outLen : (s.assertReset).outLen = 0 := rfl
@[simp] theorem assertReset_errPos : (s.assertReset).errPos = 0 := rfl
@[simp] theorem assertReset_consumed : (s.assertReset).consumed = 0 := rfl
@[simp] theorem assertReset_resultInfo : (s.assertReset).resultInfo = ResultInfo.reset := rfl
@[simp] theorem assertReset_irqEn : (s.assertReset).irqEn = IrqEn.reset := rfl
@[simp] theorem assertReset_opL : (s.assertReset).opL = Config.opAfterReset (s.epoch + 1) := rfl
@[simp] theorem assertReset_nL : (s.assertReset).nL = Config.lenAfterReset (s.epoch + 1) := rfl
@[simp] theorem assertReset_inMem : (s.assertReset).inMem = [] := rfl
@[simp] theorem assertReset_outMem : (s.assertReset).outMem = [] := rfl
@[simp] theorem assertReset_resetAsserted : (s.assertReset).resetAsserted = true := rfl
@[simp] theorem assertReset_inputs : (s.assertReset).inputs = s.inputs := rfl
@[simp] theorem assertReset_sched : (s.assertReset).sched = s.sched := rfl
@[simp] theorem assertReset_resp : (s.assertReset).resp = s.resp := rfl
@[simp] theorem assertReset_epoch : (s.assertReset).epoch = s.epoch + 1 := rfl
@[simp] theorem assertReset_draws : (s.assertReset).draws = s.draws := rfl

end AssertReset

section ReleaseReset
variable (s : State)

@[simp] theorem releaseReset_cfg : (s.releaseReset).cfg = s.cfg := rfl
@[simp] theorem releaseReset_status : (s.releaseReset).status = s.status := rfl
@[simp] theorem releaseReset_inLen : (s.releaseReset).inLen = s.inLen := rfl
@[simp] theorem releaseReset_outLen : (s.releaseReset).outLen = s.outLen := rfl
@[simp] theorem releaseReset_errPos : (s.releaseReset).errPos = s.errPos := rfl
@[simp] theorem releaseReset_consumed : (s.releaseReset).consumed = s.consumed := rfl
@[simp] theorem releaseReset_resultInfo : (s.releaseReset).resultInfo = s.resultInfo := rfl
@[simp] theorem releaseReset_irqEn : (s.releaseReset).irqEn = s.irqEn := rfl
@[simp] theorem releaseReset_opL : (s.releaseReset).opL = s.opL := rfl
@[simp] theorem releaseReset_nL : (s.releaseReset).nL = s.nL := rfl
@[simp] theorem releaseReset_inMem : (s.releaseReset).inMem = s.inMem := rfl
@[simp] theorem releaseReset_outMem : (s.releaseReset).outMem = s.outMem := rfl
@[simp] theorem releaseReset_resetAsserted : (s.releaseReset).resetAsserted = false := rfl
@[simp] theorem releaseReset_inputs : (s.releaseReset).inputs = s.inputs := rfl
@[simp] theorem releaseReset_sched : (s.releaseReset).sched = s.sched := rfl
@[simp] theorem releaseReset_resp : (s.releaseReset).resp = s.resp := rfl
@[simp] theorem releaseReset_epoch : (s.releaseReset).epoch = s.epoch := rfl
@[simp] theorem releaseReset_draws : (s.releaseReset).draws = s.draws := rfl

end ReleaseReset

end Sys2Proof.Machine
end

