-- ==== Sys2Proof/Laws/Memory.lean ====
section
/-! SUPPORT. The laws of the buffers: read after write, the canonical form, and that equal reads make equal memories. -/

namespace Sys2Proof.Machine

@[simp] theorem get?_nil (a : Nat) : Memory.get? [] a = none := rfl

/-- A read after a write to the same index gives the byte written; every other index reads as before. -/
theorem get?_set (m : Memory) (a b : Nat) (v : Byte) :
    (m.set a v).get? b = if b = a then some v else m.get? b := by
  induction m with
  | nil => rfl
  | cons x m ih =>
    obtain ⟨c, w⟩ := x
    simp only [Memory.set]
    split
    · rfl
    · split
      · subst_vars
        simp only [Memory.get?]
        split <;> rfl
      · simp only [Memory.get?, ih]
        split <;> split <;> first | rfl | omega

/-- The bytes of a written list are read back, and every other index reads as before. -/
theorem get?_setList (bs : List Byte) (m : Memory) (a i : Nat) :
    (m.setList a bs).get? i = if a ≤ i then (bs[i - a]?).or (m.get? i) else m.get? i := by
  induction bs generalizing m a with
  | nil => simp [Memory.setList]
  | cons b bs ih =>
    simp only [Memory.setList, ih, get?_set]
    rcases Nat.lt_trichotomy i a with h | h | h
    · simp [show ¬ a + 1 ≤ i by omega, show ¬ a ≤ i by omega, show i ≠ a by omega]
    · subst h; simp
    · obtain ⟨d, rfl⟩ := Nat.exists_eq_add_of_lt h
      simp [show a + 1 ≤ a + d + 1 by omega, show a ≤ a + d + 1 by omega, show a + d + 1 - (a + 1) = d by omega,
        show a + d + 1 - a = d + 1 by omega, show a + d + 1 ≠ a by omega]

theorem mem_set {m : Memory} {a : Nat} {v : Byte} {x : Host.Cell} (h : x ∈ m.set a v) : x = (a, v) ∨ x ∈ m := by
  induction m with
  | nil => simpa [Memory.set] using h
  | cons y m ih =>
    obtain ⟨c, w⟩ := y
    simp only [Memory.set] at h
    split at h
    · simpa using h
    · split at h
      · rcases List.mem_cons.1 h with h | h
        · exact .inl h
        · exact .inr (List.mem_cons_of_mem _ h)
      · rcases List.mem_cons.1 h with h | h
        · exact .inr (h ▸ List.mem_cons_self)
        · exact (ih h).imp_right (List.mem_cons_of_mem _)

/-- A write keeps the canonical form. -/
theorem set_wf {m : Memory} (a : Nat) (v : Byte) (h : m.wf) : (m.set a v).wf := by
  induction m with
  | nil => simp [Memory.set, Memory.wf]
  | cons x m ih =>
    obtain ⟨c, w⟩ := x
    obtain ⟨hx, hm⟩ := List.pairwise_cons.1 h
    simp only [Memory.set]
    split
    · refine List.pairwise_cons.2 ⟨fun y hy => ?_, h⟩
      rcases List.mem_cons.1 hy with rfl | hy
      · assumption
      · have := hx y hy; simp only at this ⊢; omega
    · split
      · subst_vars
        exact List.pairwise_cons.2 ⟨hx, hm⟩
      · refine List.pairwise_cons.2 ⟨fun y hy => ?_, ih hm⟩
        rcases mem_set hy with rfl | hy
        · simp only; omega
        · exact hx y hy

/-- MemWrite keeps the canonical form. -/
theorem setList_wf (bs : List Byte) {m : Memory} (a : Nat) (h : m.wf) : (m.setList a bs).wf := by
  induction bs generalizing m a with
  | nil => exact h
  | cons b bs ih => exact ih (a + 1) (set_wf a b h)

/-- MemWrite within the capacity keeps every index below it. -/
theorem setList_below (bs : List Byte) {m : Memory} {a cap : Nat} (h : m.below cap) (hb : a + bs.length ≤ cap) :
    (m.setList a bs).below cap := by
  induction bs generalizing m a with
  | nil => exact h
  | cons b bs ih =>
    simp only [List.length_cons] at hb
    refine ih (fun x hx => ?_) (by omega)
    rcases mem_set hx with rfl | hx
    · simp only; omega
    · exact h x hx

theorem get?_eq_none_of_lt {m : Memory} {a : Nat} (h : ∀ x ∈ m, a < x.1) : m.get? a = none := by
  induction m with
  | nil => rfl
  | cons x m ih =>
    have hx := h x List.mem_cons_self
    simp only [Memory.get?, show a ≠ x.1 by omega, if_false]
    exact ih fun y hy => h y (List.mem_cons_of_mem _ hy)

/-- Canonical memories that read alike are equal. -/
theorem eq_of_get?_eq {m n : Memory} (hm : m.wf) (hn : n.wf) (h : ∀ a, m.get? a = n.get? a) : m = n := by
  induction m generalizing n with
  | nil =>
    cases n with
    | nil => rfl
    | cons y n => have := h y.1; simp [Memory.get?] at this
  | cons x m ih =>
    cases n with
    | nil => have := h x.1; simp [Memory.get?] at this
    | cons y n =>
      obtain ⟨hx, hm'⟩ := List.pairwise_cons.1 hm
      obtain ⟨hy, hn'⟩ := List.pairwise_cons.1 hn
      have hfst : x.1 = y.1 := by
        rcases Nat.lt_trichotomy x.1 y.1 with hlt | heq | hlt
        · have h1 := h x.1
          have h2 : Memory.get? (y :: n) x.1 = none := get?_eq_none_of_lt fun z hz => by
            rcases List.mem_cons.1 hz with rfl | hz
            · exact hlt
            · exact Nat.lt_trans hlt (hy z hz)
          rw [h2] at h1
          simp [Memory.get?] at h1
        · exact heq
        · have h1 := h y.1
          have h2 : Memory.get? (x :: m) y.1 = none := get?_eq_none_of_lt fun z hz => by
            rcases List.mem_cons.1 hz with rfl | hz
            · exact hlt
            · exact Nat.lt_trans hlt (hx z hz)
          rw [h2] at h1
          simp [Memory.get?] at h1
      have hsnd : x.2 = y.2 := by
        have := h x.1
        simpa [Memory.get?, hfst] using this
      have hxy : x = y := Prod.ext hfst hsnd
      subst hxy
      congr 1
      refine ih hm' hn' fun a => ?_
      by_cases ha : a = x.1
      · subst ha
        rw [get?_eq_none_of_lt hx, get?_eq_none_of_lt hy]
      · simpa [Memory.get?, ha] using h a

/-! ### Reading the state's buffers -/

/-- `byteAt` depends on the buffer read and the epoch alone. -/
theorem byteAt_congr {s t : State} {sp : Space} (h : t.buffer sp = s.buffer sp) (he : t.epoch = s.epoch) (i : Nat) :
    t.byteAt sp i = s.byteAt sp i := by
  simp [State.byteAt, h, he]

/-- `memRead` depends on the bytes read alone. -/
theorem memRead_congr {s t : State} {sp : Space} {a n : Nat} (h : ∀ k < n, t.byteAt sp (a + k) = s.byteAt sp (a + k)) :
    t.memRead sp a n = s.memRead sp a n :=
  List.map_congr_left fun k hk => h k (List.mem_range.1 hk)

@[simp] theorem length_memRead (s : State) (sp : Space) (a n : Nat) : (s.memRead sp a n).length = n := by
  simp [State.memRead]

theorem getElem?_memRead (s : State) (sp : Space) (a n k : Nat) :
    (s.memRead sp a n)[k]? = if k < n then some (s.byteAt sp (a + k)) else none := by
  simp only [State.memRead, List.getElem?_map]
  split
  · simp [*]
  · simp [Nat.le_of_not_lt ‹_›]

/-- OUT_MEM after a MemWrite. -/
theorem byteAt_writeOut (s : State) (a : Nat) (bs : List Byte) (i : Nat) :
    (s.writeOut a bs).byteAt .outMem i =
      if a ≤ i then (bs[i - a]?).getD (s.byteAt .outMem i) else s.byteAt .outMem i := by
  simp only [State.byteAt, State.buffer, writeOut_outMem, writeOut_epoch, get?_setList]
  split
  · cases bs[i - a]? <;> simp
  · rfl

/-- IN_MEM after a MemWrite. -/
theorem byteAt_writeIn (s : State) (a : Nat) (bs : List Byte) (i : Nat) :
    (s.writeIn a bs).byteAt .inMem i =
      if a ≤ i then (bs[i - a]?).getD (s.byteAt .inMem i) else s.byteAt .inMem i := by
  simp only [State.byteAt, State.buffer, writeIn_inMem, writeIn_epoch, get?_setList]
  split
  · cases bs[i - a]? <;> simp
  · rfl

/-- The buffers of the reset state are in canonical form. -/
theorem reset_buffer_wf (sp : Space) : (State.reset.buffer sp).wf := by cases sp <;> exact List.Pairwise.nil

end Sys2Proof.Machine
end

