-- ==== Sys2Proof/Laws/Ops.lean ====
section
/-! SUPPORT. For each shared operation, everything it can do, said once: the address map, a command at the CMD write, the
completion, a READ, a WRITE, the abort. -/

namespace Sys2Proof.Machine

/-! ### Commands (R67 to R70) -/

/-- The three effects of ENCODE or DECODE at the CMD write (R67). -/
theorem startCommand_cases (s : State) (op : Op) :
    (s.status.busy = true ∧ s.startCommand op = s.drop) ∨
    (s.status.busy = false ∧ s.inLen.toNat ≤ s.cfg.inCap ∧ s.startCommand op = s.accept op) ∨
    (s.status.busy = false ∧ s.cfg.inCap < s.inLen.toNat ∧ s.startCommand op = s.rejectLength op) := by
  unfold State.startCommand
  cases hb : s.status.busy
  · by_cases h : s.inLen.toNat ≤ s.cfg.inCap
    · exact .inr (.inl ⟨rfl, h, by simp [h]⟩)
    · exact .inr (.inr ⟨rfl, by omega, by simp [h]⟩)
  · exact .inl ⟨rfl, by simp⟩

/-- The two effects of a reserved word (R59). -/
theorem reservedCommand_cases (s : State) :
    (s.status.busy = true ∧ s.reservedCommand = s.drop) ∨
    (s.status.busy = false ∧ s.reservedCommand = s.rejectCommand) := by
  unfold State.reservedCommand
  cases hb : s.status.busy <;> simp

/-- Every command answers a next state (R67). -/
theorem exec_next (i : Instr) (s : State) :
    exec i s = .next (match i with
      | .nop => s
      | .encode => s.startCommand .encode
      | .decode => s.startCommand .decode
      | .clear => if s.status.busy then s.abort.clearStatus else s.clearStatus) := by
  cases i <;> rfl

/-- What a write to CMD can do (R67): nothing, a clear with or without an abort, a drop, an acceptance or a rejection. -/
theorem commandWrite_cases {w : Word} {s t : State} (h : commandWrite w s = .next t) :
    (decode w = .ok .nop ∧ t = s) ∨
    (decode w = .ok .clear ∧ s.status.busy = true ∧ t = s.abort.clearStatus) ∨
    (decode w = .ok .clear ∧ s.status.busy = false ∧ t = s.clearStatus) ∨
    (decode w ≠ .ok .nop ∧ decode w ≠ .ok .clear ∧ s.status.busy = true ∧ t = s.drop) ∨
    (s.status.busy = false ∧ ∃ op, s.inLen.toNat ≤ s.cfg.inCap ∧ t = s.accept op) ∨
    (s.status.busy = false ∧ ∃ op, s.cfg.inCap < s.inLen.toNat ∧ t = s.rejectLength op) ∨
    (s.status.busy = false ∧ (∃ why, decode w = .error why) ∧ t = s.rejectCommand) := by
  unfold commandWrite at h
  cases hd : decode w with
  | error why =>
    rw [hd] at h
    injection h with h
    subst h
    rcases reservedCommand_cases s with ⟨hb, he⟩ | ⟨hb, he⟩ <;> rw [he] <;> simp [hb]
  | ok i =>
    rw [hd] at h
    simp only [exec_next] at h
    injection h with h
    subst h
    cases i with
    | nop => simp
    | clear => cases hb : s.status.busy <;> simp
    | encode =>
      rcases startCommand_cases s .encode with ⟨hb, he⟩ | ⟨hb, hl, he⟩ | ⟨hb, hl, he⟩ <;> simp only [he]
      · simp [hb]
      · exact .inr (.inr (.inr (.inr (.inl ⟨hb, _, hl, rfl⟩))))
      · exact .inr (.inr (.inr (.inr (.inr (.inl ⟨hb, _, hl, rfl⟩)))))
    | decode =>
      rcases startCommand_cases s .decode with ⟨hb, he⟩ | ⟨hb, hl, he⟩ | ⟨hb, hl, he⟩ <;> simp only [he]
      · simp [hb]
      · exact .inr (.inr (.inr (.inr (.inl ⟨hb, _, hl, rfl⟩))))
      · exact .inr (.inr (.inr (.inr (.inr (.inl ⟨hb, _, hl, rfl⟩)))))

/-- A write to CMD always answers a next state (R67). -/
theorem commandWrite_next (w : Word) (s : State) : ∃ t, commandWrite w s = .next t := by
  unfold commandWrite
  cases decode w with
  | error => exact ⟨_, rfl⟩
  | ok i => exact ⟨_, exec_next i s⟩

/-! ### The completion (R71) -/

/-- What a completion can be (R71): it publishes the pending bytes, or it records an invalid index and no more. -/
theorem complete_cases (s : State) :
    (s.opL = .encode ∧ s.complete =
      { s.writeOut 0 s.pendingOut with
        outLen := BitVec.ofNat 32 s.pendingOut.length, consumed := BitVec.ofNat 32 s.nL,
        resultInfo := ResultInfo.ofEncode (encPad s.nL), status := s.status.completed }) ∨
    (s.opL = .decode ∧ ∃ stop, decodeChars s.engineData = .ok s.pendingOut stop ∧ s.complete =
      { s.writeOut 0 s.pendingOut with
        outLen := BitVec.ofNat 32 s.pendingOut.length, consumed := BitVec.ofNat 32 stop,
        resultInfo := ResultInfo.ofDecode s.nL stop, status := s.status.completed }) ∨
    (s.opL = .decode ∧ s.pendingOut = [] ∧ ∃ j, decodeChars s.engineData = .invalidSymbol j ∧
      s.complete = { s with errPos := BitVec.ofNat 32 j, status := s.status.failed }) := by
  cases ho : s.opL with
  | encode => exact .inl ⟨rfl, by simp [State.complete, State.completeEncode, State.pendingOut, ho]⟩
  | decode =>
    cases hd : decodeChars s.engineData with
    | ok out stop =>
      have hp : s.pendingOut = out := by simp [State.pendingOut, ho, hd]
      exact .inr (.inl ⟨rfl, stop, by rw [hp], by simp [State.complete, State.completeDecode, ho, hd, hp]⟩)
    | invalidSymbol j =>
      exact .inr (.inr ⟨rfl, by simp [State.pendingOut, ho, hd], j, rfl,
        by simp [State.complete, State.completeDecode, ho, hd]⟩)

/-- The fields no completion changes. -/
theorem complete_frame (s : State) :
    s.complete.cfg = s.cfg ∧ s.complete.inLen = s.inLen ∧ s.complete.irqEn = s.irqEn ∧ s.complete.opL = s.opL ∧
    s.complete.nL = s.nL ∧ s.complete.inMem = s.inMem ∧ s.complete.resetAsserted = s.resetAsserted ∧
    s.complete.inputs = s.inputs ∧ s.complete.sched = s.sched ∧ s.complete.resp = s.resp ∧
    s.complete.epoch = s.epoch ∧ s.complete.draws = s.draws ∧ s.complete.status.haz = s.status.haz ∧
    s.complete.status.lastOp = s.status.lastOp ∧ s.complete.status.busy = false := by
  rcases complete_cases s with ⟨_, h⟩ | ⟨_, _, _, h⟩ | ⟨_, _, _, _, h⟩ <;> rw [h] <;>
    simp [Status.completed, Status.failed]

/-- OUT_MEM after a completion: the pending bytes, and above them what it held (R46). -/
theorem byteAt_complete (s : State) (i : Nat) :
    s.complete.byteAt .outMem i = (s.pendingOut[i]?).getD (s.byteAt .outMem i) := by
  have key := byteAt_writeOut s 0 s.pendingOut i
  simp only [Nat.zero_le, if_true, Nat.sub_zero] at key
  rcases complete_cases s with ⟨_, h⟩ | ⟨_, _, _, h⟩ | ⟨_, hp, _, _, h⟩
  · rw [h]; exact key
  · rw [h]; exact key
  · rw [h, hp]; rfl

/-! ### Old or new bytes (R120, R121) -/

/-- A racy byte is the byte held or the byte the running operation will write there. -/
theorem racyByte_oldOrNew (s : State) (n i : Nat) :
    s.racyByte n i = s.byteAt .outMem i ∨ s.pendingOut[i]? = some (s.racyByte n i) := by
  unfold State.racyByte
  cases h : s.pendingOut[i]? with
  | none => exact .inl rfl
  | some new =>
    simp only [oldOrNew]
    cases Config.takesNew n
    · exact .inl rfl
    · exact .inr rfl

/-- An index the running operation does not write is not racy. -/
theorem racyByte_of_le {s : State} {i : Nat} (n : Nat) (h : s.pendingOut.length ≤ i) :
    s.racyByte n i = s.byteAt .outMem i := by
  simp [State.racyByte, List.getElem?_eq_none h]

/-- OUT_MEM after an abort: each byte the operation would have written is racy, every other is kept (R121). -/
theorem byteAt_abort (s : State) (i : Nat) :
    s.abort.byteAt .outMem i =
      if i < s.pendingOut.length then s.racyByte (s.draws + i) i else s.byteAt .outMem i := by
  have key := byteAt_writeOut s 0 s.abortBytes i
  have : s.abort.byteAt .outMem i = (s.writeOut 0 s.abortBytes).byteAt .outMem i := rfl
  rw [this, key]
  simp only [Nat.zero_le, if_true, Nat.sub_zero, State.abortBytes, List.getElem?_map]
  split
  · simp [*]
  · simp [Nat.le_of_not_lt ‹_›]

/-! ### The address map (R35, R36) -/

/-- A register's offset is below the window offsets, and the register names it. -/
theorem regAt_some {off : Offset} {r : Reg} (h : regAt off = some r) :
    off = (match r with
      | .id => 0x000 | .inCap => 0x004 | .outCap => 0x008 | .cmd => 0x00C | .status => 0x010 | .inLen => 0x014
      | .outLen => 0x018 | .errPos => 0x01C | .consumed => 0x020 | .resultInfo => 0x024 | .irqEn => 0x028) := by
  unfold regAt at h
  repeat' split at h
  all_goals cases h
  all_goals assumption

/-- What a legal transaction reaches: a register at its offset with size 4, or an aligned place inside a window. -/
theorem target_some {c : Config} {off : Offset} {size : Size} {x : Target} (h : target c off size = some x) :
    (∃ r, x = .reg r ∧ size = .four ∧ regAt off = some r ∧ off.toNat < 0x100) ∨
    (∃ i, x = .window .inMem i ∧ off.toNat = 0x10000 + i ∧ off.toNat < 0x20000 ∧ i % size.bytes = 0 ∧
      i + size.bytes ≤ c.inCap) ∨
    (∃ i, x = .window .outMem i ∧ off.toNat = 0x20000 + i ∧ i % size.bytes = 0 ∧ i + size.bytes ≤ c.outCap) := by
  unfold target windowTarget at h
  split at h
  · split at h
    · obtain ⟨r, hr, rfl⟩ := Option.map_eq_some_iff.1 h
      exact .inl ⟨r, rfl, ‹_›, hr, ‹_›⟩
    · cases h
  · split at h
    · cases h
    · split at h <;> split at h <;> cases h
      · exact .inr (.inl ⟨_, rfl, by omega, ‹_›, ‹_ ∧ _›.1, ‹_ ∧ _›.2⟩)
      · exact .inr (.inr ⟨_, rfl, by omega, ‹_ ∧ _›.1, ‹_ ∧ _›.2⟩)

/-! ### Bytes on the bus (R39) -/

@[simp] theorem length_bytesOfWord (n : Nat) (w : Word) : (bytesOfWord n w).length = n := by simp [bytesOfWord]

/-- Byte k of write data is bits 8k+7:8k. -/
theorem getElem?_bytesOfWord (n : Nat) (w : Word) (k : Nat) :
    (bytesOfWord n w)[k]? = if k < n then some (w.extractLsb' (8 * k) 8) else none := by
  simp only [bytesOfWord, List.getElem?_map]
  split
  · simp only [List.getElem?_range, *, Option.map_some, Option.some.injEq]
    apply BitVec.eq_of_getLsbD_eq
    intro j hj
    simp [hj]
  · simp [Nat.le_of_not_lt ‹_›]

/-- Byte k of read data is byte k of the list, 0 above it. -/
theorem extractLsb'_wordOfBytes (bs : List Byte) (h : bs.length ≤ 4) (k : Nat) (hk : k < 4) :
    (wordOfBytes bs).extractLsb' (8 * k) 8 = bs[k]?.getD 0 := by
  induction bs generalizing k with
  | nil => apply BitVec.eq_of_getLsbD_eq; simp [wordOfBytes]
  | cons b bs ih =>
    have hl : bs.length ≤ 3 := Nat.le_of_succ_le_succ h
    apply BitVec.eq_of_getLsbD_eq
    intro j hj
    cases k with
    | zero => simp [wordOfBytes, hj, show j < 32 by omega]
    | succ k =>
      have := congrArg (fun v : Byte => v.getLsbD j) (ih (by omega) k (by omega))
      simp only [BitVec.getLsbD_extractLsb', hj, decide_true, Bool.true_and] at this
      simp only [wordOfBytes, BitVec.getLsbD_extractLsb', BitVec.getLsbD_or, BitVec.getLsbD_shiftLeft,
        BitVec.getLsbD_setWidth, hj, decide_true, Bool.true_and]
      rw [BitVec.getLsbD_of_ge b _ (by omega), show 8 * (k + 1) + j - 8 = 8 * k + j by omega, this]
      simp [show 8 * (k + 1) + j < 32 by omega, show ¬ 8 * (k + 1) + j < 8 by omega]

/-! ### Transactions (R34, R36) -/

/-- What a READ can do: it gives a response, and it makes choices only in the OUT window while BUSY = 1. -/
theorem performRead_cases (s : State) (off : Offset) (size : Size) :
    ∃ r n, s.performRead off size = { s.respond r with draws := s.draws + n } := by
  unfold State.performRead
  split
  · exact ⟨_, 0, rfl⟩
  · exact ⟨_, 0, rfl⟩
  · exact ⟨_, 0, rfl⟩
  · split
    · exact ⟨_, _, rfl⟩
    · exact ⟨_, 0, rfl⟩

/-- What a WRITE can do. -/
theorem performWrite_cases {off : Offset} {size : Size} {w : Word} {s t : State}
    (h : performWrite off size w s = .next t) :
    (∃ r, t = s.respond r) ∨
    (off = 0x014 ∧ size = .four ∧ t = { s.respond okayWrite with inLen := w }) ∨
    (off = 0x028 ∧ size = .four ∧ t = { s.respond okayWrite with irqEn := IrqEn.ofWord w }) ∨
    (off = 0x00C ∧ size = .four ∧ commandWrite w (s.respond okayWrite) = .next t) ∨
    (∃ i, off.toNat = 0x10000 + i ∧ off.toNat < 0x20000 ∧ i + size.bytes ≤ s.cfg.inCap ∧
      ((s.status.busy = true ∧ t = (s.respond okayWrite).drop) ∨
       (s.status.busy = false ∧ t = (s.respond okayWrite).writeIn i (bytesOfWord size.bytes w)))) := by
  unfold performWrite at h
  cases hx : target s.cfg off size with
  | none => rw [hx] at h; injection h with h; exact .inl ⟨_, h.symm⟩
  | some x =>
    rw [hx] at h
    rcases target_some hx with ⟨r, rfl, hs, hr, -⟩ | ⟨i, rfl, ho, hlt, -, hc⟩ | ⟨i, rfl, -⟩
    · have hoff := regAt_some hr
      cases r <;> simp only [writeReg] at h <;> (try injection h with h)
      case cmd => exact .inr (.inr (.inr (.inl ⟨hoff, hs, h⟩)))
      case inLen => exact .inr (.inl ⟨hoff, hs, h.symm⟩)
      case irqEn => exact .inr (.inr (.inl ⟨hoff, hs, h.symm⟩))
      all_goals exact .inl ⟨_, h.symm⟩
    · injection h with h
      refine .inr (.inr (.inr (.inr ⟨i, ho, hlt, hc, ?_⟩)))
      unfold State.writeInWindow at h
      cases hb : s.status.busy
      · exact .inr ⟨rfl, by simpa [hb] using h.symm⟩
      · exact .inl ⟨rfl, by simpa [hb] using h.symm⟩
    · injection h with h
      exact .inl ⟨_, h.symm⟩

/-- A write to a register is answered. -/
theorem writeReg_next (r : Reg) (w : Word) (s : State) : ∃ t, writeReg r w s = .next t := by
  cases r <;> first | exact ⟨_, rfl⟩ | exact commandWrite_next w s

/-- Every WRITE is answered (R34). -/
theorem performWrite_next (off : Offset) (size : Size) (w : Word) (s : State) :
    ∃ t, performWrite off size w s = .next t := by
  unfold performWrite
  split
  · exact ⟨_, rfl⟩
  · exact writeReg_next _ w _
  · exact ⟨_, rfl⟩
  · exact ⟨_, rfl⟩

/-- A write to CMD changes neither the parameters, the host's registers, IN_MEM, the reset level nor what is still to come from
outside, and the port's response is not its own. -/
theorem commandWrite_frame {w : Word} {s t : State} (h : commandWrite w s = .next t) :
    t.cfg = s.cfg ∧ t.inLen = s.inLen ∧ t.irqEn = s.irqEn ∧ t.inMem = s.inMem ∧ t.epoch = s.epoch ∧
    t.resetAsserted = s.resetAsserted ∧ t.inputs = s.inputs ∧ t.sched = s.sched ∧ t.resp = s.resp := by
  rcases commandWrite_cases h with ⟨-, rfl⟩ | ⟨-, -, rfl⟩ | ⟨-, -, rfl⟩ | ⟨-, -, -, rfl⟩ | ⟨-, -, -, rfl⟩ |
    ⟨-, -, -, rfl⟩ | ⟨-, -, rfl⟩ <;> simp

/-- A transaction changes neither the parameters, the reset level nor what is still to come from outside. -/
theorem transact_frame {x : Txn} {s t : State} (h : transact x s = .next t) :
    t.cfg = s.cfg ∧ t.resetAsserted = s.resetAsserted ∧ t.inputs = s.inputs ∧ t.sched = s.sched ∧
    t.epoch = s.epoch := by
  cases x with
  | read off size =>
    injection h with h
    obtain ⟨r, n, he⟩ := performRead_cases s off size
    rw [← h, he]
    simp
  | write off size w =>
    rcases performWrite_cases h with ⟨r, rfl⟩ | ⟨-, -, rfl⟩ | ⟨-, -, rfl⟩ | ⟨-, -, hc⟩ |
      ⟨i, -, -, -, ⟨-, rfl⟩ | ⟨-, rfl⟩⟩
    · simp
    · simp
    · simp
    · obtain ⟨h1, -, -, -, h5, h6, h7, h8, -⟩ := commandWrite_frame hc
      exact ⟨h1, h6, h7, h8, h5⟩
    · simp
    · simp

/-- Every transaction is answered (R34). -/
theorem transact_next (x : Txn) (s : State) : ∃ t, transact x s = .next t := by
  cases x with
  | read off size => exact ⟨_, rfl⟩
  | write off size w => exact performWrite_next off size w s

end Sys2Proof.Machine
end

