-- ==== Sys2Proof/Laws/PerInstr.lean ====
section
/-! SUPPORT. Statements made of each command as syntax, one lemma per constructor. -/

namespace Sys2Proof.Laws.RoundTrip

/-- The command word of `i` decodes to `i` (30_encoding.md R56, R57). -/
def Statement (i : Instr) : Prop := decode (encode i) = .ok i ∧ validCommand (encode i) = true

theorem nop : Statement .nop := ⟨rfl, rfl⟩

theorem encode : Statement .encode := ⟨rfl, rfl⟩

theorem decode : Statement .decode := ⟨rfl, rfl⟩

theorem clear : Statement .clear := ⟨rfl, rfl⟩

end Sys2Proof.Laws.RoundTrip
end

