-- ==== Sys2Proof/Laws/Step.lean ====
section
/-! SUPPORT. Everything a step can do, said once. -/

namespace Sys2Proof.Machine

/-! ### The turns -/

theorem step_engine {s : State} (h : s.turn = .engine) : step s = .next (engineTurn s.takeTurn) := by
  simp [step, h]

theorem step_host {s : State} (h : s.turn = .host) : step s = hostTurn s.takeTurn := by
  simp [step, h]

/-- The engine's turn while BUSY = 1 (R71). -/
theorem engineTurn_busy {s : State} (h : s.status.busy = true) : engineTurn s = s.complete := by
  simp [engineTurn, h]

/-- The engine's turn while BUSY = 0 (R113). -/
theorem engineTurn_idle {s : State} (h : s.status.busy = false) : engineTurn s = s := by
  simp [engineTurn, h]

theorem hostTurn_nil {s : State} (h : s.inputs = []) : hostTurn s = .next s := by
  simp [hostTurn, h]

theorem hostTurn_assertReset {s : State} {rest : List Input} (h : s.inputs = .assertReset :: rest) :
    hostTurn s = .next (s.setInputs rest).assertReset := by
  simp [hostTurn, h]

theorem hostTurn_releaseReset {s : State} {rest : List Input} (h : s.inputs = .releaseReset :: rest) :
    hostTurn s = .next (s.setInputs rest).releaseReset := by
  simp [hostTurn, h]

theorem hostTurn_poll {s : State} {off : Offset} {mask val : Word} {rest : List Input}
    (h : s.inputs = .poll off mask val :: rest) :
    hostTurn s = if s.resetAsserted then .fault .transactionDuringReset
      else .next (s.pollOnce off mask val rest) := by
  simp [hostTurn, h]

theorem hostTurn_txn {s : State} {x : Txn} {rest : List Input} (h : s.inputs = .txn x :: rest) :
    hostTurn s = if s.resetAsserted then .fault .transactionDuringReset
      else transact x (s.setInputs rest) := by
  simp [hostTurn, h]

/-- A host turn that brings a transaction while reset is released. -/
theorem step_txn {s : State} {x : Txn} {rest : List Input} (ht : s.turn = .host) (hr : s.resetAsserted = false)
    (hi : s.inputs = .txn x :: rest) : step s = transact x (s.takeTurn.setInputs rest) := by
  rw [step_host ht, hostTurn_txn (s := s.takeTurn) hi, takeTurn_resetAsserted, hr]
  rfl

/-- Everything a step can do. -/
theorem step_cases {s t : State} (h : step s = .next t) :
    (s.turn = .engine ∧ s.status.busy = true ∧ t = s.takeTurn.complete) ∨
    (s.turn = .engine ∧ s.status.busy = false ∧ t = s.takeTurn) ∨
    (s.turn = .host ∧ s.inputs = [] ∧ t = s.takeTurn) ∨
    (∃ rest, s.turn = .host ∧ s.inputs = .assertReset :: rest ∧ t = (s.takeTurn.setInputs rest).assertReset) ∨
    (∃ rest, s.turn = .host ∧ s.inputs = .releaseReset :: rest ∧ t = (s.takeTurn.setInputs rest).releaseReset) ∨
    (∃ off mask val rest, s.turn = .host ∧ s.inputs = .poll off mask val :: rest ∧ s.resetAsserted = false ∧
      t = s.takeTurn.pollOnce off mask val rest) ∨
    (∃ x rest, s.turn = .host ∧ s.inputs = .txn x :: rest ∧ s.resetAsserted = false ∧
      transact x (s.takeTurn.setInputs rest) = .next t) := by
  cases ht : s.turn with
  | engine =>
    rw [step_engine ht] at h
    injection h with h
    cases hb : s.status.busy
    · exact .inr (.inl ⟨rfl, rfl, by rw [← h, engineTurn_idle (s := s.takeTurn) hb]⟩)
    · exact .inl ⟨rfl, rfl, by rw [← h, engineTurn_busy (s := s.takeTurn) hb]⟩
  | host =>
    rw [step_host ht] at h
    match hi : s.inputs with
    | [] =>
      rw [hostTurn_nil (s := s.takeTurn) hi] at h
      injection h with h
      exact .inr (.inr (.inl ⟨rfl, rfl, h.symm⟩))
    | .assertReset :: rest =>
      rw [hostTurn_assertReset (s := s.takeTurn) hi] at h
      injection h with h
      exact .inr (.inr (.inr (.inl ⟨rest, rfl, rfl, h.symm⟩)))
    | .releaseReset :: rest =>
      rw [hostTurn_releaseReset (s := s.takeTurn) hi] at h
      injection h with h
      exact .inr (.inr (.inr (.inr (.inl ⟨rest, rfl, rfl, h.symm⟩))))
    | .poll off mask val :: rest =>
      rw [hostTurn_poll (s := s.takeTurn) hi, takeTurn_resetAsserted] at h
      cases hr : s.resetAsserted
      · rw [if_neg (by simp [hr])] at h
        injection h with h
        exact .inr (.inr (.inr (.inr (.inr (.inl ⟨off, mask, val, rest, rfl, rfl, rfl, h.symm⟩)))))
      · rw [if_pos hr] at h
        cases h
    | .txn x :: rest =>
      rw [hostTurn_txn (s := s.takeTurn) hi, takeTurn_resetAsserted] at h
      cases hr : s.resetAsserted
      · rw [if_neg (by simp [hr])] at h
        exact .inr (.inr (.inr (.inr (.inr (.inr ⟨x, rest, rfl, rfl, rfl, h⟩)))))
      · rw [if_pos hr] at h
        cases h

/-- What one round of a POLL loop can do: it is a READ, and it may leave the loop. -/
theorem pollOnce_cases (s : State) (off : Offset) (mask val : Word) (rest : List Input) :
    ∃ r n inp, (inp = s.inputs ∨ inp = rest) ∧
      s.pollOnce off mask val rest = { s.respond r with draws := s.draws + n, inputs := inp } := by
  obtain ⟨r, n, h⟩ := performRead_cases s off .four
  unfold State.pollOnce
  simp only [h]
  split
  · exact ⟨r, n, rest, .inr rfl, rfl⟩
  · exact ⟨r, n, s.inputs, .inl rfl, rfl⟩

/-- A run whose first step is known. -/
theorem run_succ {s t : State} (k : Nat) (h : step s = .next t) : core.run (k + 1) s = core.run k t := by
  have hs : core.step s = .next t := h
  simp only [Host.Core.run]
  rw [hs]

/-- Every step takes one turn off the schedule. -/
theorem step_sched {s t : State} (h : step s = .next t) : t.sched = s.sched.tail := by
  rcases step_cases h with ⟨-, -, rfl⟩ | ⟨-, -, rfl⟩ | ⟨-, -, rfl⟩ | ⟨rest, -, -, rfl⟩ | ⟨rest, -, -, rfl⟩ |
    ⟨off, mask, val, rest, -, -, -, rfl⟩ | ⟨x, rest, -, -, -, hx⟩
  · exact (complete_frame s.takeTurn).2.2.2.2.2.2.2.2.1
  · rfl
  · rfl
  · rfl
  · rfl
  · obtain ⟨r, n, inp, -, he⟩ := pollOnce_cases s.takeTurn off mask val rest
    rw [he]
    rfl
  · exact (transact_frame hx).2.2.2.1

end Sys2Proof.Machine
end

