-- ==== Sys2Proof/Tests/Slice0.lean ====
section
/-! SUPPORT. The model's own tests. Expected values are those of spec/95_test_vectors.md (the vector is named) or written out
by hand from the rule named. Then one witness for each obligation that has hypotheses. -/

namespace Sys2Proof.Tests

open Sys2Proof.Machine

/-! ### Well-formedness refuses the ill-formed -/

/-- The reference configuration of R6 is well formed, and so are the smallest and the largest buffers it allows. -/
theorem test_wf_accepts :
    Config.reference.wf = true ∧ ({ inCap := 4, outCap := 8 } : Config).wf = true ∧
    ({ inCap := 0x10000, outCap := 0x20000 } : Config).wf = true := by decide

/-- IN_CAP not a multiple of 4. -/
theorem test_wf_inCap_multiple : ({ inCap := 6, outCap := 64 } : Config).wf = false := by decide

/-- IN_CAP below 4. -/
theorem test_wf_inCap_small : ({ inCap := 0, outCap := 64 } : Config).wf = false := by decide

/-- IN_CAP above 0x10000. -/
theorem test_wf_inCap_large : ({ inCap := 0x10004, outCap := 0x20000 } : Config).wf = false := by decide

/-- OUT_CAP not a multiple of 4. -/
theorem test_wf_outCap_multiple : ({ inCap := 4, outCap := 10 } : Config).wf = false := by decide

/-- OUT_CAP below 4*ceil(IN_CAP/3): 3072 bytes encode to 4096. -/
theorem test_wf_outCap_small : ({ inCap := 3072, outCap := 4092 } : Config).wf = false := by decide

/-- OUT_CAP above 0x20000. -/
theorem test_wf_outCap_large : ({ inCap := 4, outCap := 0x20004 } : Config).wf = false := by decide

/-- Words that are no command: a reserved opcode, a nonzero RSVD over a legal opcode. -/
theorem test_wf_reserved_words :
    validCommand 0x00000004 = false ∧ validCommand 0x000000FF = false ∧ validCommand 0x00000100 = false ∧
    validCommand 0x80000003 = false := by decide

/-! ### Decoding, the words written out bit by bit from R55 and R56: RSVD in bits 31:8, OPCODE in bits 7:0 -/

theorem test_decode_nop : decode 0b000000000000000000000000_00000000 = .ok .nop := by rfl

theorem test_decode_encode : decode 0b000000000000000000000000_00000001 = .ok .encode := by rfl

theorem test_decode_decode : decode 0b000000000000000000000000_00000010 = .ok .decode := by rfl

theorem test_decode_clear : decode 0b000000000000000000000000_00000011 = .ok .clear := by rfl

/-- C7 to C10 and a word with the top RSVD bit set are reserved. -/
theorem test_decode_reserved :
    decode 0x00000004 = .error .reservedOpcode ∧ decode 0x000000FF = .error .reservedOpcode ∧
    decode 0x00000100 = .error .rsvdNonzero ∧ decode 0x00000105 = .error .rsvdNonzero ∧
    decode 0x80000001 = .error .rsvdNonzero := ⟨rfl, rfl, rfl, rfl, rfl⟩

theorem test_decodeTableWord :
    decodeTableWord 32 0 = some .nop ∧ decodeTableWord 32 1 = some .encode ∧ decodeTableWord 32 2 = some .decode ∧
    decodeTableWord 32 3 = some .clear ∧ decodeTableWord 32 4 = none := by decide

/-! ### Small states -/

/-- The next state, if there is one. -/
def after : Host.Outcome State Fault Refusal → Option State
  | .next t => some t
  | .fault _ => none
  | .refused _ => none

/-- The reset state with `bs` in IN_MEM from index 0 and their count in IN_LEN, and the turns and inputs to come. -/
def idle (bs : List Byte) (turns : List Turn) (inputs : List Input) : State :=
  { State.reset with
    inMem := Memory.setList [] 0 bs, inLen := BitVec.ofNat 32 bs.length, sched := turns, inputs := inputs }

/-- That state once `op` has been accepted. -/
def running (op : Op) (bs : List Byte) (turns : List Turn) (inputs : List Input) : State :=
  (idle bs turns inputs).accept op

/-- "Man". -/
def man : List Byte := [0x4D, 0x61, 0x6E]

/-- "TWE=". -/
def twe : List Byte := [0x54, 0x57, 0x45, 0x3D]

/-- "A!==". -/
def bad : List Byte := [0x41, 0x21, 0x3D, 0x3D]

/-- The first bytes of OUT_MEM. -/
def out (s : State) (n : Nat) : List Byte := s.memRead .outMem 0 n

/-! ### The four commands -/

/-- C1. -/
theorem test_nop_keeps_status :
    (after (exec .nop { State.reset with status := { Status.reset with done := true } })).map (·.readReg .status) =
      some 0x00000002 := by decide

/-- C2: NOP while busy neither aborts nor sets HAZ. -/
theorem test_nop_while_busy :
    (after (exec .nop (running .encode man [] []))).map (·.readReg .status) = some 0x00000001 := by decide

/-- C3 and C16: acceptance. -/
theorem test_encode_accepted :
    (after (exec .encode { idle man [] [] with outLen := 4, status := { Status.reset with done := true } })).map
      (fun t => (t.readReg .status, t.readReg .outLen)) = some (0x00000001, 0x00000000) := by decide

/-- C12: busy is checked before the length. -/
theorem test_encode_dropped :
    (after (exec .encode { running .encode man [] [] with inLen := 0xFFFF })).map (·.readReg .status) =
      some 0x00000009 := by decide

/-- C5: BAD_LENGTH with LAST_OP 1, and the length stays. -/
theorem test_decode_rejected :
    (after (exec .decode { State.reset with inLen := 0xFFFFFFFF })).map (fun t => (t.readReg .status, t.readReg .inLen)) =
      some (0x00000124, 0xFFFFFFFF) := by decide

/-- C6: IN_LEN = IN_CAP is accepted. -/
theorem test_decode_at_capacity :
    (after (exec .decode { State.reset with inLen := 0x00000C00 })).map (fun t => (t.readReg .status, t.nL)) =
      some (0x00000101, 3072) := by decide

/-- C14: CLEAR aborts. -/
theorem test_clear_aborts :
    (after (exec .clear { running .encode man [] [] with inLen := 9, irqEn := IrqEn.ofWord 5 })).map
      (fun t => (t.readReg .status, t.readReg .inLen, t.readReg .irqEn)) = some (0x00000000, 9, 5) := by decide

/-- C15 with HAZ set: from STATUS = 0x0000011C (the example of R75). -/
theorem test_clear_after_error :
    (after (exec .clear { (running .decode bad [] []).completeDecode.drop with inLen := 4 })).map
      (fun t => (t.readReg .status, t.readReg .errPos)) = some (0x00000000, 0x00000000) := by decide

/-- C9: BAD_COMMAND keeps LAST_OP. -/
theorem test_reserved_keeps_lastOp :
    (after (commandWrite 0x000000FF { State.reset with status := { Status.reset with done := true, lastOp := .decode } })).map
      (·.readReg .status) = some 0x00000134 := by decide

/-- C10: the class is checked before the length. -/
theorem test_reserved_before_length :
    (after (commandWrite 0x00000105 { State.reset with inLen := 0xC01 })).map (·.readReg .status) = some 0x00000034 := by
  decide

/-! ### The engine's step -/

/-- S1, with the bytes above the result kept. -/
theorem test_complete_encode :
    let t := engineTurn { running .encode man [] [] with outMem := [(4, 0x99)] }
    out t 5 = [0x54, 0x57, 0x46, 0x75, 0x99] ∧ t.readReg .outLen = 4 ∧ t.readReg .consumed = 3 ∧
      t.readReg .resultInfo = 0 ∧ t.readReg .status = 0x00000002 := by decide

/-- S4. -/
theorem test_complete_decode :
    let t := engineTurn (running .decode [0x54, 0x57, 0x46, 0x75, 0x54, 0x57, 0x45, 0x3D, 0x54, 0x51, 0x3D, 0x3D] [] [])
    out t 5 = [0x4D, 0x61, 0x6E, 0x4D, 0x61] ∧ t.readReg .outLen = 5 ∧ t.readReg .consumed = 7 ∧
      t.readReg .resultInfo = 0x00010300 ∧ t.readReg .status = 0x00000102 := by decide

/-- S5 and D31: a failed decode writes nothing. -/
theorem test_complete_decode_invalid :
    let t := engineTurn { running .decode bad [] [] with outMem := [(0, 0x11), (1, 0x22)] }
    out t 2 = [0x11, 0x22] ∧ t.readReg .outLen = 0 ∧ t.readReg .errPos = 1 ∧ t.readReg .status = 0x00000114 := by decide

/-! ### The transform -/

/-- E1 to E11. -/
theorem test_encode_vectors :
    encodeBytes [] = [] ∧ encodeBytes [0x00] = [0x41, 0x41, 0x3D, 0x3D] ∧
    encodeBytes [0xFF, 0xFF] = [0x2F, 0x2F, 0x38, 0x3D] ∧ encodeBytes [0xFB, 0xEF, 0xBE] = [0x2B, 0x2B, 0x2B, 0x2B] ∧
    encodeBytes [0x68, 0x65, 0x6C, 0x6C, 0x6F] = [0x61, 0x47, 0x56, 0x73, 0x62, 0x47, 0x38, 0x3D] := by decide

/-- E14: these 48 bytes encode to the whole alphabet in its order, here by its codes of R62. -/
theorem test_encode_alphabet :
    encodeBytes [0x00, 0x10, 0x83, 0x10, 0x51, 0x87, 0x20, 0x92, 0x8B, 0x30, 0xD3, 0x8F, 0x41, 0x14, 0x93, 0x51,
      0x55, 0x97, 0x61, 0x96, 0x9B, 0x71, 0xD7, 0x9F, 0x82, 0x18, 0xA3, 0x92, 0x59, 0xA7, 0xA2, 0x9A,
      0xAB, 0xB2, 0xDB, 0xAF, 0xC3, 0x1C, 0xB3, 0xD3, 0x5D, 0xB7, 0xE3, 0x9E, 0xBB, 0xF3, 0xDF, 0xBF] =
    ((List.range 26).map fun v => BitVec.ofNat 8 (0x41 + v)) ++ ((List.range 26).map fun v => BitVec.ofNat 8 (0x61 + v)) ++
      ((List.range 10).map fun v => BitVec.ofNat 8 (0x30 + v)) ++ [0x2B, 0x2F] := by decide

/-- D6, D7, D9, D18, D20. -/
theorem test_decode_vectors :
    decodeChars [0x41] = .ok [] 1 ∧ decodeChars [0x3D] = .ok [] 0 ∧ decodeChars [0x41, 0x42] = .ok [0x00] 2 ∧
    decodeChars [0x54, 0x57, 0x46, 0x75, 0x3D, 0x67, 0x21] = .ok [0x4D, 0x61, 0x6E] 4 ∧
    decodeChars [0x54, 0x57, 0x46, 0x75, 0x54] = .ok [0x4D, 0x61, 0x6E] 5 := by decide

/-- D25 to D30. -/
theorem test_decode_invalid_vectors :
    decodeChars [0x21] = .invalidSymbol 0 ∧ decodeChars [0x54, 0x57, 0x46, 0x75, 0x0A] = .invalidSymbol 4 ∧
    decodeChars [0x54, 0x57, 0x20, 0x46, 0x75] = .invalidSymbol 2 ∧ decodeChars [0x2D, 0x5F, 0x3D, 0x3D] = .invalidSymbol 0 ∧
    decodeChars [0x54, 0x57, 0x46, 0x80] = .invalidSymbol 3 := by decide

/-! ### The port -/

/-- B6. -/
theorem test_irqEn_reserved_bits :
    (after (transact (.write 0x028 .four 0xFFFFFFFF) State.reset)).map (·.readReg .irqEn) = some 0x00000007 := by decide

/-- B8 to B16: SLVERR. -/
theorem test_slverr :
    [(Txn.read 0x010 .two), .write 0x014 .one 5, .read 0x02C .four, .read 0x012 .four, .write 0x10002 .four 0x11223344,
      .write 0x10001 .two 0x1122, .write 0x10C00 .one 0, .read 0x21000 .one, .read 0x30000 .four].map
      (fun x => ((after (transact x State.reset)).bind (·.resp)).map (·.resp)) = List.replicate 9 (some .slverr) := by decide

/-- B17: a word write is little-endian. -/
theorem test_window_write :
    (after (transact (.write 0x10000 .four 0x75465754) State.reset)).map (·.inMem) =
      some [(0, 0x54), (1, 0x57), (2, 0x46), (3, 0x75)] := by decide

/-- B17: a halfword read of the upper half. -/
theorem test_window_read :
    (after (transact (.read 0x10002 .two) (idle [0x54, 0x57, 0x46, 0x75] [] []))).bind (·.resp) =
      some { resp := .okay, rdata := some 0x00007546 } := by decide

/-- H1 and H9: an IN window write while busy is dropped, sets HAZ and raises irq. -/
theorem test_hazard :
    (after (transact (.write 0x10000 .one 0) { running .encode man [] [] with irqEn := IrqEn.ofWord 4 })).map
      (fun t => (t.byteAt .inMem 0, t.readReg .status, t.irq)) = some (0x4D, 0x00000009, true) := by decide

/-- H2: byte 1 of a word read while busy is AA or 57, whichever the free choice is. -/
theorem test_racy_read :
    let s : State := { running .encode man [] [] with outMem := [(0, 0xAA), (1, 0xAA), (2, 0xAA), (3, 0xAA)] }
    s.racyByte 1 1 = 0xAA ∨ s.racyByte 1 1 = 0x57 := by
  show oldOrNew 1 0xAA 0x57 = 0xAA ∨ oldOrNew 1 0xAA 0x57 = 0x57
  cases h : Config.takesNew 1 <;> simp [oldOrNew, h]

/-- H3: a failing decode's bytes read their old values. -/
theorem test_racy_read_failing :
    ({ running .decode bad [] [] with outMem := [(0, 0xAA)] } : State).racyByte 0 0 = 0xAA := by decide

/-- R67 at the port, from reset: the word placed is the command the very next step runs. -/
theorem test_withFetchWord :
    (after (step (State.reset.withFetchWord 32 1))).map (·.readReg .status) = some 0x00000001 ∧
    (after (step (State.reset.withFetchWord 32 2))).map (·.readReg .status) = some 0x00000101 := by decide

/-- R66: the bytes of `LOAD 0, "Man"`. -/
theorem test_script_load :
    load 0 man = [wr8 0x10000 0x4D, wr8 0x10001 0x61, wr8 0x10002 0x6E] := by decide

/-! ### States that satisfy the invariant -/

theorem idle_inv (bs : List Byte) (turns : List Turn) (inputs : List Input) (h : bs.length ≤ 3072) :
    (idle bs turns inputs).Inv :=
  { cfgLegal := by show Config.reference.wf = true; decide
    statusInv :=
      { notDoneAndErr := by rintro ⟨h, -⟩; cases h
        busyIsClean := fun h => (by cases h)
        errHasCode := ⟨fun _ => rfl, fun _ => rfl⟩
        invalidIsDecode := fun h => (by cases h)
        lastOpRuns := fun h => (by cases h) }
    lenLegal := fun h => (by cases h)
    noResult := fun _ => ⟨rfl, rfl, rfl⟩
    noErrPos := fun _ => rfl
    encodeInfo := fun h => (by cases h)
    decodeInfo := fun h => (by cases h)
    resultFits := ⟨Nat.zero_le _, Nat.zero_le _, Nat.zero_le _⟩
    inMemWf := setList_wf _ _ List.Pairwise.nil
    outMemWf := List.Pairwise.nil
    inMemBelow := setList_below _ (fun x hx => by cases hx) (by show 0 + bs.length ≤ 3072; omega)
    outMemBelow := fun x hx => (by cases hx)
    inReset := fun h => (by cases h) }

theorem running_inv (op : Op) (bs : List Byte) (turns : List Turn) (inputs : List Input) (h : bs.length ≤ 3072) :
    (running op bs turns inputs).Inv :=
  have hi := idle_inv bs turns inputs h
  { cfgLegal := hi.cfgLegal
    statusInv :=
      { notDoneAndErr := by rintro ⟨h, -⟩; cases h
        busyIsClean := fun _ => ⟨rfl, rfl, rfl⟩
        errHasCode := ⟨fun _ => rfl, fun _ => rfl⟩
        invalidIsDecode := fun h => (by cases h)
        lastOpRuns := fun _ => rfl }
    lenLegal := fun _ => by
      show (BitVec.ofNat 32 bs.length).toNat ≤ 3072
      rw [BitVec.toNat_ofNat, Nat.mod_eq_of_lt (by omega)]
      exact h
    noResult := fun _ => ⟨rfl, rfl, rfl⟩
    noErrPos := fun _ => rfl
    encodeInfo := fun h => (by cases h)
    decodeInfo := fun h => (by cases h)
    resultFits := ⟨Nat.zero_le _, Nat.zero_le _, Nat.zero_le _⟩
    inMemWf := hi.inMemWf
    outMemWf := hi.outMemWf
    inMemBelow := hi.inMemBelow
    outMemBelow := hi.outMemBelow
    inReset := fun h => (by cases h) }

/-! ### Witnesses: for each obligation with hypotheses, a state and operands that meet them all together -/

theorem reserved_is_no_command : ∀ i, (0x00000105 : Word) ≠ encode i := by
  intro i
  cases i <;> decide

theorem witness_DecodeIsTotalAndExact :
    decode 0x00000003 = .ok .clear ∧
    ¬ ((0x00000004 : Word).extractLsb' 8 24 = 0 ∧ (0x00000004 : Word).extractLsb' 0 8 ≤ 3#8) := ⟨rfl, by decide⟩

theorem witness_DecodeAndEncodeAgree :
    (∀ i : Instr, i.wf = true) ∧ decode 0x00000002 = .ok .decode := ⟨fun i => by cases i <;> rfl, rfl⟩

theorem witness_StepRunsDecodedCommand :
    let s := idle man [.host] [.txn (.write 0x00C .four 0x00000001)]
    s.turn = .host ∧ s.resetAsserted = false ∧ s.inputs = .txn (.write 0x00C .four 0x00000001) :: [] ∧
      decode 0x00000001 = .ok .encode := ⟨rfl, rfl, rfl, rfl⟩

theorem witness_ReservedWordsNeverExecute_idle :
    let s := idle man [.host] [.txn (.write 0x00C .four 0x00000105)]
    s.turn = .host ∧ s.resetAsserted = false ∧ s.inputs = .txn (.write 0x00C .four 0x00000105) :: [] ∧
      (∀ i, (0x00000105 : Word) ≠ encode i) ∧ s.status.busy = false := ⟨rfl, rfl, rfl, reserved_is_no_command, rfl⟩

theorem witness_ReservedWordsNeverExecute_busy :
    let s := running .decode twe [.host] [.txn (.write 0x00C .four 0x00000105)]
    s.turn = .host ∧ s.resetAsserted = false ∧ s.inputs = .txn (.write 0x00C .four 0x00000105) :: [] ∧
      (∀ i, (0x00000105 : Word) ≠ encode i) ∧ s.status.busy = true := ⟨rfl, rfl, rfl, reserved_is_no_command, rfl⟩

theorem witness_EngineStepsExactlyWhenBusy :
    (running .encode man [.engine] []).turn = .engine ∧ (running .encode man [.engine] []).status.busy = true ∧
    (idle man [.engine] []).turn = .engine ∧ (idle man [.engine] []).status.busy = false := ⟨rfl, rfl, rfl, rfl⟩

theorem witness_IdleStateChangesOnlyByWrites :
    let s := idle man [.host] [rd32 0x010]
    (∃ t, step s = .next t) ∧ s.status.busy = false ∧ (∀ off size w, ¬ s.takes (.txn (.write off size w))) ∧
      ¬ s.takes .assertReset ∧ ¬ s.takes .releaseReset := by
  refine ⟨⟨_, rfl⟩, rfl, ?_, ?_, ?_⟩
  · rintro off size w ⟨-, rest, h⟩; cases h
  · rintro ⟨-, rest, h⟩; cases h
  · rintro ⟨-, rest, h⟩; cases h

theorem witness_NopHasNoEffect :
    let s := running .encode man [.host] [.txn (.write 0x00C .four 0x00000000)]
    s.turn = .host ∧ s.resetAsserted = false ∧ s.inputs = .txn (.write 0x00C .four 0x00000000) :: [] := ⟨rfl, rfl, rfl⟩

theorem witness_ClearZeroesStatusAndResults :
    (idle man [] []).status.busy = false ∧ (running .encode man [] []).status.busy = true := ⟨rfl, rfl⟩

theorem witness_AbortTouchesOnlyTheAbandonedResult :
    (running .decode bad [] []).status.busy = true ∧ (running .decode bad [] []).opL = .decode ∧
    (running .decode bad [] []).pendingOut.length ≤ 0 ∧
    ∃ j, decodeChars (running .decode bad [] []).engineData = .invalidSymbol j := ⟨rfl, rfl, by decide, 1, by decide⟩

theorem witness_AcceptanceStartsTheOperation :
    let s : State := { State.reset with inLen := 0x00000C00 }
    s.status.busy = false ∧ s.inLen.toNat ≤ s.cfg.inCap := by decide

theorem witness_RejectionRecordsTheError :
    let s : State := { State.reset with inLen := 0x00000C01 }
    s.status.busy = false ∧ s.cfg.inCap < s.inLen.toNat ∧ ∀ i, (0x00000105 : Word) ≠ encode i :=
  ⟨rfl, by decide, reserved_is_no_command⟩

theorem witness_BusyCommandIsDropped :
    (running .decode twe [] []).status.busy = true ∧ (0x00000001 : Word) ≠ encode .nop ∧
    (0x00000001 : Word) ≠ encode .clear ∧ (0x00000105 : Word) ≠ encode .nop ∧ (0x00000105 : Word) ≠ encode .clear := by decide

theorem witness_EncodeCompletionPublishesTheText :
    let s := running .encode man [.engine] []
    s.Inv ∧ s.turn = .engine ∧ s.status.busy = true ∧ s.opL = .encode :=
  ⟨running_inv _ _ _ _ (by decide), rfl, rfl, rfl⟩

theorem witness_DecodeCompletionPublishesTheBytes :
    let s := running .decode twe [.engine] []
    s.Inv ∧ s.turn = .engine ∧ s.status.busy = true ∧ s.opL = .decode ∧
      decodeChars (s.memRead .inMem 0 s.nL) = .ok [0x4D, 0x61] 3 :=
  ⟨running_inv _ _ _ _ (by decide), rfl, rfl, rfl, by decide⟩

theorem witness_FailedDecodeReturnsNothing :
    let s := running .decode bad [.engine] []
    s.Inv ∧ s.turn = .engine ∧ s.status.busy = true ∧ s.opL = .decode ∧
      decodeChars (s.memRead .inMem 0 s.nL) = .invalidSymbol 1 :=
  ⟨running_inv _ _ _ _ (by decide), rfl, rfl, rfl, by decide⟩

theorem witness_EncodeRunsToItsResult :
    let s := idle man [] []
    s.cfg.wf = true ∧ s.status.busy = false ∧ s.inLen.toNat ≤ s.cfg.inCap := by decide

theorem witness_DecodeRunsToItsResult :
    (let s := idle twe [] []
     s.cfg.wf = true ∧ s.status.busy = false ∧ s.inLen.toNat ≤ s.cfg.inCap ∧
       decodeChars (s.memRead .inMem 0 s.inLen.toNat) = .ok [0x4D, 0x61] 3) ∧
    (let s := idle bad [] []
     s.cfg.wf = true ∧ s.status.busy = false ∧ s.inLen.toNat ≤ s.cfg.inCap ∧
       decodeChars (s.memRead .inMem 0 s.inLen.toNat) = .invalidSymbol 1) := by decide

theorem witness_CompletionDependsOnlyOnItsInput :
    let s₁ := running .encode man [] []
    let s₂ := running .encode man [.host] [rd8 0x20000]
    s₁.Inv ∧ s₂.Inv ∧ s₁.status.busy = true ∧ s₂.status.busy = true ∧ s₁.opL = s₂.opL ∧ s₁.nL = s₂.nL ∧
      (∀ i < s₁.nL, s₁.byteAt .inMem i = s₂.byteAt .inMem i) ∧ s₁ ≠ s₂ :=
  ⟨running_inv _ _ _ _ (by decide), running_inv _ _ _ _ (by decide), rfl, rfl, rfl, rfl, fun _ _ => rfl, by decide⟩

theorem witness_AlphabetAndReverseTableAreInverse :
    rev 0x41 = .symbol 0 ∧ rev 0x2F = .symbol 63 ∧ rev 0x3D = .padmark ∧ rev 0xFF = .invalid := by decide

theorem witness_SlicesAreBitFieldsOfTheBytes : (3 : Nat) < 4 := by decide

theorem witness_EncodeGivesEachGroupItsCharacters :
    (1 < ([0x4D, 0x61, 0x6E, 0x79] : List Byte).length.succ.succ / 3 ∧ 3 < 4) ∧
    (0 < ([0x4D] : List Byte).length.succ.succ / 3 ∧ 2 < 4) := by decide

theorem witness_EncodePaddingCount : 3072 % 3 = 0 ∧ 1 % 3 = 1 ∧ 3071 % 3 = 2 := by decide

theorem witness_EncodeAlphabetClosure :
    (encodeBytes [0x4D])[2]? = some pad ∧ (0x54 : Byte) ∈ encodeBytes [0x4D] := by decide

theorem witness_ResultsFitInOutMem :
    Config.reference.wf = true ∧ twe.length ≤ Config.reference.inCap ∧ decodeChars twe = .ok [0x4D, 0x61] 3 := by decide

theorem witness_LowestInvalidIndexIsReported :
    decodeChars bad = .invalidSymbol 1 ∧ ∀ i < stopIndex twe, (twe[i]?).map rev ≠ some .invalid := by decide

theorem witness_DecodeLengthLaw : decodeChars twe = .ok [0x4D, 0x61] 3 := by decide

theorem witness_ResetInputResetsEveryRegister :
    let s := running .encode man [.host] [.assertReset]
    s.turn = .host ∧ s.inputs = .assertReset :: [] := ⟨rfl, rfl⟩

theorem witness_SlverrExactlyOnBadTransactions :
    State.reset.cfg.wf = true ∧ slverrCondition State.reset.cfg (Txn.read 0x02C .four).offset (Txn.read 0x02C .four).bytes ∧
    ¬ slverrCondition State.reset.cfg (Txn.read 0x028 .four).offset (Txn.read 0x028 .four).bytes := by
  refine ⟨by decide, ?_, ?_⟩ <;> unfold slverrCondition unmapped <;> decide

/-- The two ends of the OUT window in the reference configuration. -/
theorem witness_WritesToReadOnlyStateAreIgnored :
    (0x024 : Offset) ∈ ([0x000, 0x004, 0x008, 0x010, 0x018, 0x01C, 0x020, 0x024] : List Offset) ∧
    (0x20000 ≤ (0x20000 : Offset).toNat ∧ ¬ slverrCondition State.reset.cfg (0x20000 : Offset).toNat Size.four.bytes) ∧
    (0x20000 ≤ (0x20FFF : Offset).toNat ∧ ¬ slverrCondition State.reset.cfg (0x20FFF : Offset).toNat Size.one.bytes) := by
  unfold slverrCondition unmapped
  decide

/-- The two ends of the IN window in the reference configuration (B20). -/
theorem witness_InWindowWriteStoresItsBytes :
    (idle man [] []).status.busy = false ∧
    (0x10000 ≤ (0x10000 : Offset).toNat ∧ (0x10000 : Offset).toNat < 0x20000 ∧
      ¬ slverrCondition (idle man [] []).cfg (0x10000 : Offset).toNat Size.four.bytes) ∧
    (0x10000 ≤ (0x10BFF : Offset).toNat ∧ (0x10BFF : Offset).toNat < 0x20000 ∧
      ¬ slverrCondition (idle man [] []).cfg (0x10BFF : Offset).toNat Size.one.bytes) := by
  unfold slverrCondition unmapped
  decide

theorem witness_InWindowWriteWhileBusyIsDropped :
    (running .encode man [] []).status.busy = true ∧
    (0x10000 ≤ (0x10BFE : Offset).toNat ∧ (0x10BFE : Offset).toNat < 0x20000 ∧
      ¬ slverrCondition (running .encode man [] []).cfg (0x10BFE : Offset).toNat Size.two.bytes) := by
  unfold slverrCondition unmapped
  decide

theorem witness_InWindowReadReturnsItsBytes :
    0x10000 ≤ (0x10BFC : Offset).toNat ∧ (0x10BFC : Offset).toNat < 0x20000 ∧
      ¬ slverrCondition (idle man [] []).cfg (0x10BFC : Offset).toNat Size.four.bytes := by
  unfold slverrCondition unmapped
  decide

theorem witness_OutWindowReadReturnsItsBytes :
    (idle man [] []).status.busy = false ∧ 0x20000 ≤ (0x20FFC : Offset).toNat ∧
      ¬ slverrCondition (idle man [] []).cfg (0x20FFC : Offset).toNat Size.four.bytes := by
  unfold slverrCondition unmapped
  decide

theorem witness_OutWindowReadWhileBusyIsOldOrNew :
    (running .encode man [] []).status.busy = true ∧ 0x20000 ≤ (0x20000 : Offset).toNat ∧
      ¬ slverrCondition (running .encode man [] []).cfg (0x20000 : Offset).toNat Size.four.bytes := by
  unfold slverrCondition unmapped
  decide

theorem witness_EveryStepKeepsTheInvariant :
    (running .encode man [.engine] []).Inv ∧ (∃ t, step (running .encode man [.engine] []) = .next t) ∧
    (idle man [.host] [command .decode]).Inv ∧ ∃ t, step (idle man [.host] [command .decode]) = .next t :=
  ⟨running_inv _ _ _ _ (by decide), ⟨_, rfl⟩, idle_inv _ _ _ (by decide), ⟨_, rfl⟩⟩

theorem witness_StatusInvariantsAreKept :
    (running .decode bad [.engine] []).StatusInv ∧ ∃ t, step (running .decode bad [.engine] []) = .next t :=
  ⟨(running_inv _ _ _ _ (by decide)).statusInv, ⟨_, rfl⟩⟩

/-- HAZ cleared by CLEAR, and HAZ set by a dropped ENCODE. -/
theorem witness_HazChangesOnlyAsStated :
    (∃ s t : State, step s = .next t ∧ s.status.haz = true ∧ t.status.haz = false) ∧
    ∃ s t : State, step s = .next t ∧ s.status.haz = false ∧ t.status.haz = true :=
  ⟨⟨(idle man [.host] [command .clear]).drop, _, rfl, rfl, rfl⟩,
   ⟨running .encode man [.host] [command .encode], _, rfl, rfl, rfl⟩⟩

theorem witness_InMemChangesOnlyByIdleHostWrites :
    ∃ t, step (idle man [.host] [wr8 0x10000 0x00]) = .next t ∧
      t.byteAt .inMem 0 ≠ (idle man [.host] [wr8 0x10000 0x00]).byteAt .inMem 0 :=
  ⟨_, rfl, by decide⟩

theorem witness_OutMemChangesOnlyByTheRunningResult :
    let s : State := { running .encode man [.engine] [] with outMem := [(0, 0xAA)] }
    ∃ t, step s = .next t ∧ t.byteAt .outMem 0 ≠ s.byteAt .outMem 0 :=
  ⟨_, rfl, by decide⟩

theorem witness_ControlRegistersChangeOnlyByTheirWrites :
    (∃ t, step (idle man [.host] [setLen 9]) = .next t ∧ t.inLen ≠ (idle man [.host] [setLen 9]).inLen) ∧
    ∃ t, step (idle man [.host] [wr32 0x028 7]) = .next t ∧ t.irqEn ≠ (idle man [.host] [wr32 0x028 7]).irqEn :=
  ⟨⟨_, rfl, by decide⟩, ⟨_, rfl, by decide⟩⟩

/-- A command is dropped while the operation runs on. -/
theorem witness_RunningOperationIsFrozen :
    ∃ t, BusySteps (running .encode man [.host] [command .decode]) t ∧ t.status.haz = true :=
  ⟨_, .tail (.refl _ rfl) rfl rfl, rfl⟩

theorem witness_EveryOperationEnds :
    let s := running .encode man [.host, .host] [rd32 0x010, wr8 0x10000 0x00]
    s.status.busy = true ∧ s.hostObeys = true := ⟨rfl, rfl⟩

/-- The fault, and its absence. -/
theorem witness_StuckOnlyByTransactionsDuringReset :
    step { State.reset with resetAsserted := true, inputs := [rd32 0x010] } = .fault .transactionDuringReset ∧
    ∃ t, step (idle man [.host] [rd32 0x010]) = .next t := ⟨rfl, _, rfl⟩

theorem witness_ObedientHostNeverStuck :
    (idle man [.host] [.assertReset, .releaseReset, setLen 3, command .encode, wait]).hostObeys = true := rfl

theorem witness_BothInterleavingsAreAdmitted :
    let s := running .encode man [] [.txn (.write 0x10000 .one 0)]
    s.status.busy = true ∧ s.opL = .encode ∧ s.resetAsserted = false ∧ s.inputs = .txn (.write 0x10000 .one 0) :: [] ∧
      0x10000 ≤ (0x10000 : Offset).toNat ∧ (0x10000 : Offset).toNat < 0x20000 ∧
      ¬ slverrCondition s.cfg (0x10000 : Offset).toNat Size.one.bytes := by
  unfold slverrCondition unmapped
  decide

theorem witness_WaitEndsWhenTheOperationDoes :
    let s := running .encode man [] [wait]
    s.status.busy = true ∧ s.resetAsserted = false ∧ s.sched = [] ∧ s.inputs = wait :: [] := ⟨rfl, rfl, rfl, rfl⟩

end Sys2Proof.Tests
end

section
/-! PROOFS for 00_scope.md: the lengths of an encode and of a decode, and R8. -/

namespace Sys2Proof.Machine

/-- R6 gives OUT_MEM room for the encode of a full IN_MEM. -/
theorem encodedInCap_le_outCap {c : Config} (h : c.wf = true) : 4 * ((c.inCap + 2) / 3) ≤ c.outCap := by
  simp only [Config.wf, Bool.and_eq_true, decide_eq_true_eq] at h
  obtain ⟨⟨_, hroom⟩, _⟩ := h
  exact hroom

/-- R83. -/
theorem length_encodeBytes (b : List Byte) : (encodeBytes b).length = 4 * ((b.length + 2) / 3) := by
  induction b using encodeBytes.induct with
  | case1 => rfl
  | case2 b0 => simp
  | case3 b0 b1 => simp
  | case4 b0 b1 b2 bs ih =>
    simp only [encodeBytes_group, List.length_append, length_groupChars, List.length_cons, ih]
    omega

/-! ### Unpacking, group by group, the leftover values by the tail rule (R92) -/

@[simp] theorem unpack_nil : unpack [] = [] := rfl
@[simp] theorem unpack_one (v0 : Sym) : unpack [v0] = [] := rfl
@[simp] theorem unpack_two (v0 v1 : Sym) : unpack [v0, v1] = unpackTail [v0, v1] := rfl
@[simp] theorem unpack_three (v0 v1 v2 : Sym) : unpack [v0, v1, v2] = unpackTail [v0, v1, v2] := rfl

@[simp] theorem length_unpackTail_two (v0 v1 : Sym) : (unpackTail [v0, v1]).length = 1 := rfl
@[simp] theorem length_unpackTail_three (v0 v1 v2 : Sym) : (unpackTail [v0, v1, v2]).length = 2 := rfl

/-- A value carries 6 bits and a byte takes 8; bits left over give no byte (R91, R92). -/
theorem length_unpack : ∀ vs : List Sym, (unpack vs).length = 3 * vs.length / 4
  | [] => rfl
  | [_] => by simp
  | [_, _] => by simp
  | [_, _, _] => by simp
  | v0 :: v1 :: v2 :: v3 :: vs => by
    simp only [unpack_group, List.length_cons, length_unpack vs]
    omega

/-- What a decode that succeeds answers (R93). -/
theorem decodeChars_ok {t out : List Byte} {stop : Nat} (h : decodeChars t = .ok out stop) :
    out = unpack ((t.take (stopIndex t)).filterMap symbolOf) ∧ stop = stopIndex t := by
  rcases decodeChars_cases t with ⟨j, _, hbad⟩ | ⟨_, hok⟩
  · rw [hbad] at h
    cases h
  · rw [hok] at h
    cases h
    exact ⟨rfl, rfl⟩

/-- A decode of N characters gives at most N bytes (R8): each character gives at most one value, and four values three bytes. -/
theorem length_le_of_decodeChars_ok {t out : List Byte} {stop : Nat} (h : decodeChars t = .ok out stop) :
    out.length ≤ t.length := by
  obtain ⟨rfl, _⟩ := decodeChars_ok h
  have hvalues : ((t.take (stopIndex t)).filterMap symbolOf).length ≤ t.length :=
    (List.length_filterMap_le _ _).trans (List.length_take_le' _ _)
  rw [length_unpack]
  omega

/-- Settles O27: R6 gives OUT_MEM room for the longest encode, and a decode never grows. -/
theorem resultsFitInOutMem : Obligations.ResultsFitInOutMem := by
  intro c d hwf hlen
  have hroom := encodedInCap_le_outCap hwf
  refine ⟨?_, fun out stop hdec => ?_⟩
  · rw [length_encodeBytes]
    omega
  · have hshort := length_le_of_decodeChars_ok hdec
    exact ⟨by omega, hshort⟩

end Sys2Proof.Machine
end

section
/-! PROOFS for 10_state.md: the registers and their words, what one step can do to the block, and the invariant of the
block. -/

namespace Sys2Proof.Machine

/-! ### The words of STATUS, RESULT_INFO and IRQ_EN (R19, R28, R29) -/

theorem Status.toWord_flags (st : Status) :
    st.toWord.getLsbD 0 = st.busy ∧ st.toWord.getLsbD 1 = st.done ∧ st.toWord.getLsbD 2 = st.err ∧
    st.toWord.getLsbD 3 = st.haz ∧ st.toWord.getLsbD 8 = opBit st.lastOp := by
  simp only [Status.toWord, BitVec.getLsbD_append]
  simp

theorem Status.toWord_errCode (st : Status) : st.toWord.extractLsb' 4 4 = st.errCode.bits := by
  unfold Status.toWord
  repeat rw [BitVec.extractLsb'_append_eq_of_le (by decide)]
  exact BitVec.extractLsb'_append_eq_right

theorem Status.toWord_reserved (st : Status) : st.toWord.extractLsb' 9 23 = 0 := by
  unfold Status.toWord
  repeat rw [BitVec.extractLsb'_append_eq_of_le (by decide)]
  rfl

theorem ResultInfo.toWord_fields (ri : ResultInfo) :
    ri.toWord.extractLsb' 0 2 = ri.encPad ∧ ri.toWord.extractLsb' 8 2 = ri.decTail ∧
    ri.toWord.getLsbD 16 = ri.padFound := by
  unfold ResultInfo.toWord
  refine ⟨BitVec.extractLsb'_append_eq_right, ?_, ?_⟩
  · repeat rw [BitVec.extractLsb'_append_eq_of_le (by decide)]
    exact BitVec.extractLsb'_append_eq_right
  · simp only [BitVec.getLsbD_append]
    simp

theorem ResultInfo.toWord_reserved (ri : ResultInfo) :
    ri.toWord.extractLsb' 2 6 = 0 ∧ ri.toWord.extractLsb' 10 6 = 0 ∧ ri.toWord.extractLsb' 17 15 = 0 := by
  unfold ResultInfo.toWord
  refine ⟨?_, ?_, ?_⟩
  · rw [BitVec.extractLsb'_append_eq_of_le (by decide)]
    exact BitVec.extractLsb'_append_eq_right
  · repeat rw [BitVec.extractLsb'_append_eq_of_le (by decide)]
    exact BitVec.extractLsb'_append_eq_right
  · repeat rw [BitVec.extractLsb'_append_eq_of_le (by decide)]
    rfl

theorem IrqEn.getLsbD_toWord (ie : IrqEn) :
    ie.toWord.getLsbD 0 = ie.doneIe ∧ ie.toWord.getLsbD 1 = ie.errIe ∧ ie.toWord.getLsbD 2 = ie.hazIe ∧
    ∀ j, ie.toWord.getLsbD (j + 3) = false := by
  simp only [IrqEn.toWord, BitVec.getLsbD_append]
  simp

theorem IrqEn.toWord_reserved (ie : IrqEn) : ie.toWord.extractLsb' 3 29 = 0 := by
  unfold IrqEn.toWord
  repeat rw [BitVec.extractLsb'_append_eq_of_le (by decide)]
  rfl

/-- A write to IRQ_EN reads back masked to bits 2:0 (R29). -/
theorem IrqEn.toWord_ofWord (w : Word) : (IrqEn.ofWord w).toWord = w &&& 7 := by
  obtain ⟨hdone, herr, hhaz, habove⟩ := IrqEn.getLsbD_toWord (IrqEn.ofWord w)
  have hmask : ∀ j, (7#32).getLsbD (j + 3) = false := fun j => by
    rw [show 7#32 = (7#3).setWidth 32 from rfl, BitVec.getLsbD_setWidth]
    simp
  apply BitVec.eq_of_getLsbD_eq
  intro j _
  match j with
  | 0 => simpa [IrqEn.ofWord] using hdone
  | 1 => simpa [IrqEn.ofWord] using herr
  | 2 => simpa [IrqEn.ofWord] using hhaz
  | j + 3 => simp [habove, hmask]

/-- Settles O37: each field is found at its place in the word, and what stands between the fields is 0. -/
theorem registerFieldsStandInTheirBits : Obligations.RegisterFieldsStandInTheirBits := by
  refine ⟨fun st => ?_, fun ri => ?_, fun ie => ?_⟩
  · obtain ⟨hbusy, hdone, herr, hhaz, hlast⟩ := st.toWord_flags
    refine ⟨hbusy, hdone, herr, hhaz, ?_, ?_, st.toWord_reserved⟩
    · rw [st.toWord_errCode]
      cases st.errCode <;> rfl
    · rw [hlast]
      cases st.lastOp <;> rfl
  · obtain ⟨hpad, htail, hfound⟩ := ri.toWord_fields
    obtain ⟨hlow, hmid, hhigh⟩ := ri.toWord_reserved
    exact ⟨hpad, hlow, htail, hmid, hfound, hhigh⟩
  · obtain ⟨hdone, herr, hhaz, -⟩ := ie.getLsbD_toWord
    exact ⟨hdone, herr, hhaz, ie.toWord_reserved⟩

/-! ### Register transactions (R36 to R38) -/

/-- A 32-bit access at a register's offset reaches the register (R35). -/
theorem target_of_regAt {off : Offset} {r : Reg} (c : Config) (h : regAt off = some r) :
    target c off .four = some (.reg r) := by
  have hlow : off.toNat < 0x100 := by
    cases r <;> simp [regAt_some h]
  simp [target, hlow, h]

/-- A 32-bit READ of a register answers its value and changes nothing (R37). -/
theorem transact_read_of_regAt {off : Offset} {r : Reg} (s : State) (h : regAt off = some r) :
    transact (.read off .four) s = .next (s.respond (okayRead (s.readReg r))) := by
  simp [transact, State.performRead, target_of_regAt s.cfg h]

/-- A 32-bit WRITE at a register's offset is a write to the register, answered OKAY. -/
theorem transact_write_of_regAt {off : Offset} {r : Reg} (s : State) (w : Word) (h : regAt off = some r) :
    transact (.write off .four w) s = writeReg r w (s.respond okayWrite) := by
  simp [transact, performWrite, target_of_regAt s.cfg h]

/-- Settles O36: each offset is that of the register it names. -/
theorem registerReadsReturnTheirValues : Obligations.RegisterReadsReturnTheirValues := fun s =>
  have read {off : Offset} {r : Reg} (h : regAt off = some r) := transact_read_of_regAt s h
  ⟨read (r := .id) rfl, read (r := .inCap) rfl, read (r := .outCap) rfl, read (r := .cmd) rfl,
   read (r := .status) rfl, read (r := .inLen) rfl, read (r := .outLen) rfl, read (r := .errPos) rfl,
   read (r := .consumed) rfl, read (r := .resultInfo) rfl, read (r := .irqEn) rfl⟩

/-! ### The completion (R71) -/

theorem complete_of_encode {s : State} (hop : s.opL = .encode) : s.complete = s.completeEncode := by
  simp [State.complete, hop]

theorem complete_of_decode_ok {s : State} {out : List Byte} {stop : Nat} (hop : s.opL = .decode)
    (hdec : decodeChars s.engineData = .ok out stop) :
    s.complete = { s.writeOut 0 out with
      outLen := BitVec.ofNat 32 out.length, consumed := BitVec.ofNat 32 stop,
      resultInfo := ResultInfo.ofDecode s.nL stop, status := s.status.completed } := by
  simp [State.complete, State.completeDecode, hop, hdec]

theorem complete_of_decode_invalid {s : State} {j : Nat} (hop : s.opL = .decode)
    (hdec : decodeChars s.engineData = .invalidSymbol j) :
    s.complete = { s with errPos := BitVec.ofNat 32 j, status := s.status.failed } := by
  simp [State.complete, State.completeDecode, hop, hdec]

/-- A completion neither reads nor changes the schedule. -/
theorem complete_takeTurn (s : State) : s.takeTurn.complete = s.complete.takeTurn := by
  rcases complete_cases s with ⟨hop, -⟩ | ⟨hop, stop, hdec, h⟩ | ⟨hop, -, j, hdec, h⟩
  · rw [complete_of_encode hop, complete_of_encode (by exact hop)]; rfl
  · rw [h, complete_of_decode_ok (by exact hop) (by exact hdec)]; rfl
  · rw [h, complete_of_decode_invalid (by exact hop) (by exact hdec)]; rfl

/-- A completion neither reads nor changes IN_LEN and the port's response. -/
theorem complete_with_inLen_resp (s : State) (w : Word) (resp : Option Response) :
    State.complete { s with inLen := w, resp := resp } = { s.complete with inLen := w, resp := resp } := by
  rcases complete_cases s with ⟨hop, -⟩ | ⟨hop, stop, hdec, h⟩ | ⟨hop, -, j, hdec, h⟩
  · rw [complete_of_encode hop, complete_of_encode (by exact hop)]; rfl
  · rw [h, complete_of_decode_ok (by exact hop) (by exact hdec)]; rfl
  · rw [h, complete_of_decode_invalid (by exact hop) (by exact hdec)]

/-! ### Writes to IN_LEN and IRQ_EN (R22, R29) -/

/-- Settles O40: IN_LEN is read at the acceptance only, so the running operation goes on as it was. -/
theorem inLenStoresEveryWrite : Obligations.InLenStoresEveryWrite := by
  intro s w
  refine ⟨_, rfl, transact_write_of_regAt s w (r := .inLen) rfl, transact_read_of_regAt _ (r := .inLen) rfl, rfl, ?_⟩
  cases hbusy : s.status.busy with
  | true =>
    rw [engineTurn_busy hbusy, engineTurn_busy (by exact hbusy)]
    exact complete_with_inLen_resp s w (some okayWrite)
  | false => rw [engineTurn_idle hbusy, engineTurn_idle (by exact hbusy)]

/-- Settles O41: the write stores `IrqEn.ofWord w`, which reads as `w` masked. -/
theorem irqEnStoresItsThreeBits : Obligations.IrqEnStoresItsThreeBits := fun s w =>
  ⟨_, transact_write_of_regAt s w (r := .irqEn) rfl, IrqEn.toWord_ofWord w, rfl⟩

/-! ### The reset state -/

/-- Settles O34, register by register. -/
theorem resetStateReadsTheSpecValues : Obligations.ResetStateReadsTheSpecValues :=
  ⟨fun r => by cases r <;> rfl, rfl, rfl, rfl, by decide⟩

/-! ### The block's own state

What is still to come from outside, the port's response and the counter of choices are no part of the block, and no rule
speaks of them: a step is described by what it does to `State.block`. -/

@[simp] theorem block_respond (s : State) (r : Response) : (s.respond r).block = s.block := rfl
@[simp] theorem block_takeTurn (s : State) : s.takeTurn.block = s.block := rfl
@[simp] theorem block_setInputs (s : State) (rest : List Input) : (s.setInputs rest).block = s.block := rfl

/-- A READ changes nothing of the block (R44). -/
@[simp] theorem block_performRead (s : State) (off : Offset) (size : Size) :
    (s.performRead off size).block = s.block := by
  obtain ⟨r, n, h⟩ := performRead_cases s off size
  rw [h]
  rfl

/-- A round of a POLL changes nothing of the block (R44, R66). -/
@[simp] theorem block_pollOnce (s : State) (off : Offset) (mask val : Word) (rest : List Input) :
    (s.pollOnce off mask val rest).block = s.block := by
  obtain ⟨r, n, inp, -, h⟩ := pollOnce_cases s off mask val rest
  rw [h]
  rfl

theorem status_eq_of_block_eq {s t : State} (h : t.block = s.block) : t.status = s.status :=
  (congrArg State.status h :)
theorem opL_eq_of_block_eq {s t : State} (h : t.block = s.block) : t.opL = s.opL :=
  (congrArg State.opL h :)
theorem cfg_eq_of_block_eq {s t : State} (h : t.block = s.block) : t.cfg = s.cfg :=
  (congrArg State.cfg h :)
theorem inLen_eq_of_block_eq {s t : State} (h : t.block = s.block) : t.inLen = s.inLen :=
  (congrArg State.inLen h :)
theorem irqEn_eq_of_block_eq {s t : State} (h : t.block = s.block) : t.irqEn = s.irqEn :=
  (congrArg State.irqEn h :)

theorem byteAt_eq_of_block_eq {s t : State} (h : t.block = s.block) (sp : Space) (i : Nat) :
    t.byteAt sp i = s.byteAt sp i := by
  refine byteAt_congr ?_ (congrArg State.epoch h) i
  cases sp
  · exact congrArg State.inMem h
  · exact congrArg State.outMem h

theorem engineData_eq_of_block_eq {s t : State} (h : t.block = s.block) : t.engineData = s.engineData := by
  have hlen : t.nL = s.nL := (congrArg State.nL h :)
  rw [State.engineData, hlen]
  exact memRead_congr fun k _ => byteAt_eq_of_block_eq h _ _

theorem pendingOut_eq_of_block_eq {s t : State} (h : t.block = s.block) : t.pendingOut = s.pendingOut := by
  simp only [State.pendingOut, opL_eq_of_block_eq h, engineData_eq_of_block_eq h]

/-- What an abort leaves depends on the block and on the choices made so far (R121). -/
theorem block_abort_eq {s t : State} (h : t.block = s.block) (hdraws : t.draws = s.draws) :
    t.abort.block = s.abort.block := by
  have hout : t.outMem = s.outMem := (congrArg State.outMem h :)
  have hbytes : t.abortBytes = s.abortBytes := by
    simp only [State.abortBytes, State.racyByte, pendingOut_eq_of_block_eq h, byteAt_eq_of_block_eq h, hdraws]
  calc t.abort.block = { t.block with outMem := t.outMem.setList 0 t.abortBytes } := rfl
    _ = { s.block with outMem := s.outMem.setList 0 s.abortBytes } := by rw [h, hout, hbytes]
    _ = s.abort.block := rfl

theorem block_clearStatus_eq {s t : State} (h : t.block = s.block) : t.clearStatus.block = s.clearStatus.block :=
  (congrArg State.clearStatus h :)

/-- Only STATUS and OP_L are spoken of. -/
theorem State.StatusInv.congr {s t : State} (h : s.StatusInv) (hstatus : t.status = s.status) (hop : t.opL = s.opL) :
    t.StatusInv where
  notDoneAndErr := hstatus ▸ h.notDoneAndErr
  busyIsClean := hstatus ▸ h.busyIsClean
  errHasCode := hstatus ▸ h.errHasCode
  invalidIsDecode := hstatus ▸ h.invalidIsDecode
  lastOpRuns := hstatus ▸ hop ▸ h.lastOpRuns

theorem State.StatusInv.of_block_eq {s t : State} (hs : s.StatusInv) (h : t.block = s.block) : t.StatusInv :=
  hs.congr (status_eq_of_block_eq h) (opL_eq_of_block_eq h)

theorem State.Inv.of_block_eq {s t : State} (hs : s.Inv) (h : t.block = s.block) : t.Inv := by
  have hblock : s.block.Inv := { hs with statusInv := hs.statusInv.of_block_eq rfl }
  rw [← h] at hblock
  exact { hblock with statusInv := hblock.statusInv.of_block_eq rfl }

/-! ### What one step can do to the block -/

/-- A word that decodes to a command is the command's word (R56, R57). -/
theorem encode_of_decode {w : Word} {i : Instr} (h : decode w = .ok i) : encode i = w := by
  have hw : rsvdField w ++ opcodeField w = w := BitVec.extractLsb'_append_extractLsb' (w := 24) (len := 8)
  unfold decode at h
  split at h
  · cases h
  · rename_i hr
    repeat' split at h
    all_goals cases h
    all_goals
      rename_i hop
      rw [← hw, not_not.1 hr, hop]
      rfl

/-- What one step can do to the block, each effect with the turn or the input that brings it and the
conditions under which it does. -/
inductive StepEffect (s t : State) : Prop where
  /-- The block stays as it was: a READ, a POLL, NOP, an ignored or refused write, an engine turn while idle. -/
  | quiet (ht : t.block = s.block)
  /-- The engine's step (R71). -/
  | completes (hturn : s.turn = .engine) (hbusy : s.status.busy = true) (ht : t.block = s.complete.block)
  /-- The reset input becomes asserted (R114). -/
  | resets (htakes : s.takes .assertReset) (ht : t.block = s.assertReset.block)
  /-- The reset input becomes released (R117). -/
  | releases (htakes : s.takes .releaseReset) (ht : t.block = s.releaseReset.block)
  /-- A write to IN_LEN (R22). -/
  | setsInLen (w : Word) (htakes : s.takes (.txn (.write 0x014 .four w))) (hreset : s.resetAsserted = false)
      (ht : t.block = State.block { s with inLen := w })
  /-- A write to IRQ_EN (R29). -/
  | setsIrqEn (w : Word) (htakes : s.takes (.txn (.write 0x028 .four w))) (hreset : s.resetAsserted = false)
      (ht : t.block = State.block { s with irqEn := IrqEn.ofWord w })
  /-- A write to the IN window while idle (R42). -/
  | stores (off : Offset) (size : Size) (w : Word) (i : Nat) (htakes : s.takes (.txn (.write off size w)))
      (hidle : s.status.busy = false) (hoff : off.toNat = 0x10000 + i) (hcap : i + size.bytes ≤ s.cfg.inCap)
      (ht : t.block = (s.writeIn i (bytesOfWord size.bytes w)).block)
  /-- A write dropped because an operation runs (R70, R118). -/
  | drops (off : Offset) (size : Size) (w : Word) (htakes : s.takes (.txn (.write off size w)))
      (hbusy : s.status.busy = true)
      (hwhere : (0x10000 ≤ off.toNat ∧ off.toNat < 0x20000) ∨
        (off = 0x00C ∧ size = .four ∧ w ≠ encode .nop ∧ w ≠ encode .clear))
      (ht : t.block = s.drop.block)
  /-- CLEAR while idle (R75). -/
  | clears (htakes : s.takes (.txn (.write 0x00C .four (encode .clear)))) (hidle : s.status.busy = false)
      (ht : t.block = s.clearStatus.block)
  /-- CLEAR while an operation runs (R75, R121). -/
  | aborts (htakes : s.takes (.txn (.write 0x00C .four (encode .clear)))) (hbusy : s.status.busy = true)
      (ht : t.block = s.abort.clearStatus.block)
  /-- ENCODE or DECODE accepted (R68). -/
  | accepts (w : Word) (op : Op) (htakes : s.takes (.txn (.write 0x00C .four w))) (hreset : s.resetAsserted = false)
      (hidle : s.status.busy = false) (hlen : s.inLen.toNat ≤ s.cfg.inCap) (ht : t.block = (s.accept op).block)
  /-- ENCODE or DECODE rejected with BAD_LENGTH (R69). -/
  | rejectsLength (w : Word) (op : Op) (htakes : s.takes (.txn (.write 0x00C .four w)))
      (hreset : s.resetAsserted = false) (hidle : s.status.busy = false) (ht : t.block = (s.rejectLength op).block)
  /-- A reserved word rejected with BAD_COMMAND (R69). -/
  | rejectsCommand (w : Word) (htakes : s.takes (.txn (.write 0x00C .four w))) (hreset : s.resetAsserted = false)
      (hidle : s.status.busy = false) (ht : t.block = s.rejectCommand.block)

/-- The effect of a write to CMD. -/
theorem stepEffect_of_commandWrite {s t : State} {rest : List Input} {w : Word}
    (htakes : s.takes (.txn (.write 0x00C .four w))) (hreset : s.resetAsserted = false)
    (h : commandWrite w ((s.takeTurn.setInputs rest).respond okayWrite) = .next t) : StepEffect s t := by
  rcases commandWrite_cases h with ⟨-, rfl⟩ | ⟨hclear, hbusy, rfl⟩ | ⟨hclear, hidle, rfl⟩ | ⟨hnop, hclear, hbusy, rfl⟩ |
    ⟨hidle, op, hlen, rfl⟩ | ⟨hidle, op, -, rfl⟩ | ⟨hidle, -, rfl⟩
  · exact .quiet (by simp)
  · exact .aborts (encode_of_decode hclear ▸ htakes) hbusy (block_clearStatus_eq (block_abort_eq (by simp) rfl))
  · exact .clears (encode_of_decode hclear ▸ htakes) hidle (by simp [State.block])
  · refine .drops _ _ w htakes hbusy (.inr ⟨rfl, rfl, ?_, ?_⟩) (by simp [State.block])
    · rintro rfl
      exact hnop rfl
    · rintro rfl
      exact hclear rfl
  · exact .accepts w op htakes hreset hidle hlen (by simp [State.block])
  · exact .rejectsLength w op htakes hreset hidle (by simp [State.block])
  · exact .rejectsCommand w htakes hreset hidle (by simp [State.block])

/-- The effect of a host WRITE. -/
theorem stepEffect_of_write {s t : State} {rest : List Input} {off : Offset} {size : Size} {w : Word}
    (htakes : s.takes (.txn (.write off size w))) (hreset : s.resetAsserted = false)
    (h : performWrite off size w (s.takeTurn.setInputs rest) = .next t) : StepEffect s t := by
  rcases performWrite_cases h with ⟨r, rfl⟩ | ⟨rfl, rfl, rfl⟩ | ⟨rfl, rfl, rfl⟩ | ⟨rfl, rfl, hcmd⟩ |
    ⟨i, hoff, hlt, hcap, ⟨hbusy, rfl⟩ | ⟨hidle, rfl⟩⟩
  · exact .quiet (by simp)
  · exact .setsInLen w htakes hreset (by simp [State.block])
  · exact .setsIrqEn w htakes hreset (by simp [State.block])
  · exact stepEffect_of_commandWrite htakes hreset hcmd
  · exact .drops off size w htakes hbusy (.inl ⟨by omega, hlt⟩) (by simp [State.block])
  · exact .stores off size w i htakes hidle hoff hcap (by simp [State.block])

/-- Every step has one of the effects. -/
theorem stepEffect_of_step {s t : State} (h : step s = .next t) : StepEffect s t := by
  rcases step_cases h with ⟨hturn, hbusy, rfl⟩ | ⟨-, -, rfl⟩ | ⟨-, -, rfl⟩ | ⟨rest, hturn, hin, rfl⟩ |
    ⟨rest, hturn, hin, rfl⟩ | ⟨off, mask, val, rest, -, -, -, rfl⟩ | ⟨x, rest, hturn, hin, hreset, hx⟩
  · exact .completes hturn hbusy (by rw [complete_takeTurn, block_takeTurn])
  · exact .quiet (by simp)
  · exact .quiet (by simp)
  · exact .resets ⟨hturn, rest, hin⟩ (by simp [State.block])
  · exact .releases ⟨hturn, rest, hin⟩ (by simp [State.block])
  · exact .quiet (by simp)
  · cases x with
    | read off size =>
      injection hx with hx
      exact .quiet (by rw [← hx]; simp)
    | write off size w => exact stepEffect_of_write ⟨hturn, rest, hin⟩ hreset hx

/-! ### The STATUS invariants, operation by operation (R20) -/

namespace State.StatusInv
variable {s : State}

theorem of_status_reset (h : s.status = Status.reset) : s.StatusInv where
  notDoneAndErr := by simp [h, Status.reset]
  busyIsClean := by simp [h, Status.reset]
  errHasCode := by simp [h, Status.reset]
  invalidIsDecode := by simp [h, Status.reset]
  lastOpRuns := by simp [h, Status.reset]

/-- A completion without an error finds ERR and ERR_CODE at 0 (R68), and leaves them so. -/
theorem completed {t : State} (h : s.StatusInv) (hbusy : s.status.busy = true)
    (hstatus : t.status = s.status.completed) : t.StatusInv := by
  obtain ⟨-, herr, hcode⟩ := h.busyIsClean hbusy
  constructor <;> simp [hstatus, Status.completed, herr, hcode]

/-- A completion in INVALID_SYMBOL finds DONE at 0 and LAST_OP at the running operation (R68), a DECODE. -/
theorem failed {t : State} (h : s.StatusInv) (hbusy : s.status.busy = true) (hop : s.opL = .decode)
    (hstatus : t.status = s.status.failed) : t.StatusInv := by
  obtain ⟨hdone, -, -⟩ := h.busyIsClean hbusy
  have hlast := h.lastOpRuns hbusy
  constructor <;> simp [hstatus, Status.failed, hdone, hlast, hop]

theorem complete (h : s.StatusInv) (hbusy : s.status.busy = true) : s.complete.StatusInv := by
  rcases complete_cases s with ⟨-, he⟩ | ⟨-, _, -, he⟩ | ⟨hop, -, _, -, he⟩ <;> rw [he]
  · exact h.completed hbusy rfl
  · exact h.completed hbusy rfl
  · exact h.failed hbusy hop rfl

/-- HAZ is in no clause (R20). -/
theorem drop (h : s.StatusInv) : s.drop.StatusInv where
  notDoneAndErr := h.notDoneAndErr
  busyIsClean := h.busyIsClean
  errHasCode := h.errHasCode
  invalidIsDecode := h.invalidIsDecode
  lastOpRuns := h.lastOpRuns

theorem accept (op : Op) : (s.accept op).StatusInv := by
  constructor <;> simp [Status.accepted]

theorem rejectLength (op : Op) (hidle : s.status.busy = false) : (s.rejectLength op).StatusInv := by
  constructor <;> simp [Status.rejected, hidle]

theorem rejectCommand (hidle : s.status.busy = false) : s.rejectCommand.StatusInv := by
  constructor <;> simp [Status.rejected, hidle]

end State.StatusInv

theorem statusInv_of_stepEffect {s t : State} (hs : s.StatusInv) (h : StepEffect s t) : t.StatusInv := by
  cases h with
  | quiet ht => exact hs.of_block_eq ht
  | completes _ hbusy ht => exact (hs.complete hbusy).of_block_eq ht
  | resets _ ht => exact (State.StatusInv.of_status_reset (assertReset_status s)).of_block_eq ht
  | clears _ _ ht => exact (State.StatusInv.of_status_reset (clearStatus_status s)).of_block_eq ht
  | aborts _ _ ht => exact (State.StatusInv.of_status_reset (clearStatus_status s.abort)).of_block_eq ht
  | drops _ _ _ _ _ _ ht => exact hs.drop.of_block_eq ht
  | accepts _ op _ _ _ _ ht => exact (State.StatusInv.accept op).of_block_eq ht
  | rejectsLength _ op _ _ hidle ht => exact (State.StatusInv.rejectLength op hidle).of_block_eq ht
  | rejectsCommand _ _ _ hidle ht => exact (State.StatusInv.rejectCommand hidle).of_block_eq ht
  | releases _ ht | setsInLen _ _ _ ht | setsIrqEn _ _ _ ht | stores _ _ _ _ _ _ _ _ ht =>
    exact hs.congr (status_eq_of_block_eq ht :) (opL_eq_of_block_eq ht :)

/-- Settles O50: STATUS is 0 at reset, and each effect a step can have keeps the invariants. -/
theorem statusInvariantsAreKept : Obligations.StatusInvariantsAreKept :=
  ⟨.of_status_reset rfl, fun _ _ hs h => statusInv_of_stepEffect hs (stepEffect_of_step h)⟩

/-! ### The invariant of the block, operation by operation -/

/-- A reported index is one of the characters scanned (R90). -/
theorem firstInvalid_lt {t : List Byte} {j : Nat} (h : firstInvalid t = some j) : j < t.length := by
  induction t generalizing j with
  | nil => cases h
  | cons c cs ih =>
    rw [firstInvalid_cons] at h
    split at h
    · cases h
      simp
    · obtain ⟨k, hk, rfl⟩ := Option.map_eq_some_iff.1 h
      simpa using ih hk

theorem lt_length_of_decodeChars_invalid {t : List Byte} {j : Nat} (h : decodeChars t = .invalidSymbol j) :
    j < t.length := by
  rcases decodeChars_cases t with ⟨k, hk, hbad⟩ | ⟨-, hok⟩
  · rw [hbad] at h
    cases h
    exact (firstInvalid_lt hk).trans_le (List.length_take_le' _ _)
  · rw [hok] at h
    cases h

theorem stop_le_of_decodeChars_ok {t out : List Byte} {stop : Nat} (h : decodeChars t = .ok out stop) :
    stop ≤ t.length := by
  rw [(decodeChars_ok h).2]
  exact stopIndex_le t

/-- Narrowing to a register never makes a number larger. -/
theorem toNat_ofNat_le {n m : Nat} (h : n ≤ m) : (BitVec.ofNat 32 n).toNat ≤ m := by
  rw [BitVec.toNat_ofNat]
  exact (Nat.mod_le _ _).trans h

namespace State.Inv
variable {s : State}

/-- With no operation on record, the result registers at 0 and the buffers unspecified, every clause holds. -/
theorem of_registers_reset (hcfg : s.cfg.wf = true) (hstatus : s.status = Status.reset)
    (hresults : s.outLen = 0 ∧ s.errPos = 0 ∧ s.consumed = 0 ∧ s.resultInfo = ResultInfo.reset)
    (hhost : s.inLen = 0 ∧ s.irqEn = IrqEn.reset) (hmem : s.inMem = [] ∧ s.outMem = []) : s.Inv := by
  obtain ⟨hout, herr, hcons, hinfo⟩ := hresults
  obtain ⟨hin, houtMem⟩ := hmem
  exact
    { cfgLegal := hcfg
      statusInv := .of_status_reset hstatus
      lenLegal := by simp [hstatus, Status.reset]
      noResult := fun _ => ⟨hout, hcons, hinfo⟩
      noErrPos := fun _ => herr
      encodeInfo := by simp [hstatus, Status.reset]
      decodeInfo := by simp [hstatus, Status.reset]
      resultFits := by simp [hout, hcons, herr]
      inMemWf := by simp [hin]
      outMemWf := by simp [houtMem]
      inMemBelow := by simp [hin, Memory.below]
      outMemBelow := by simp [houtMem, Memory.below]
      inReset := fun _ => ⟨hstatus, hhost⟩ }

/-- The running operation's result has room in OUT_MEM (R8). -/
theorem length_pendingOut_le (h : s.Inv) (hbusy : s.status.busy = true) : s.pendingOut.length ≤ s.cfg.outCap := by
  have hlen : s.engineData.length ≤ s.cfg.inCap := by simpa [State.engineData] using h.lenLegal hbusy
  obtain ⟨hencode, hdecode⟩ := resultsFitInOutMem s.cfg s.engineData h.cfgLegal hlen
  unfold State.pendingOut
  cases s.opL with
  | encode => exact hencode
  | decode =>
    cases hdec : decodeChars s.engineData with
    | ok out stop => exact (hdecode out stop hdec).1
    | invalidSymbol j => simp

theorem resetReleased_of_busy (h : s.Inv) (hbusy : s.status.busy = true) : ¬ s.resetAsserted = true := by
  intro hreset
  rw [(h.inReset hreset).1] at hbusy
  cases hbusy

/-- A completion that publishes: at most IN_CAP consumed, and no RESULT_INFO field of the other operation. -/
theorem publish (h : s.Inv) (hbusy : s.status.busy = true) {n : Nat} {ri : ResultInfo} (hn : n ≤ s.cfg.inCap)
    (hencode : s.opL = .encode → ri.decTail = 0 ∧ ri.padFound = false) (hdecode : s.opL = .decode → ri.encPad = 0) :
    State.Inv { s.writeOut 0 s.pendingOut with
      outLen := BitVec.ofNat 32 s.pendingOut.length, consumed := BitVec.ofNat 32 n, resultInfo := ri,
      status := s.status.completed } where
  cfgLegal := h.cfgLegal
  statusInv := h.statusInv.completed hbusy rfl
  lenLegal := fun hb => by cases hb
  noResult := fun hd => by cases hd
  noErrPos := h.noErrPos
  encodeInfo := fun _ hlast => hencode ((h.statusInv.lastOpRuns hbusy).symm.trans hlast)
  decodeInfo := fun _ hlast => hdecode ((h.statusInv.lastOpRuns hbusy).symm.trans hlast)
  resultFits :=
    have ⟨_, _, herr⟩ := h.resultFits
    ⟨toNat_ofNat_le (h.length_pendingOut_le hbusy), toNat_ofNat_le hn, herr⟩
  inMemWf := h.inMemWf
  outMemWf := setList_wf _ 0 h.outMemWf
  inMemBelow := h.inMemBelow
  outMemBelow := setList_below _ h.outMemBelow (by simpa using h.length_pendingOut_le hbusy)
  inReset := fun hreset => absurd hreset (h.resetReleased_of_busy hbusy)

/-- The completion (R71). -/
theorem complete (h : s.Inv) (hbusy : s.status.busy = true) : s.complete.Inv := by
  have hdata : s.engineData.length = s.nL := length_memRead s .inMem 0 s.nL
  have hlen := h.lenLegal hbusy
  rcases complete_cases s with ⟨hop, he⟩ | ⟨hop, stop, hdec, he⟩ | ⟨hop, -, j, hdec, he⟩ <;> rw [he]
  · exact h.publish hbusy hlen (fun _ => ⟨rfl, rfl⟩) fun hdecode => by simp [hop] at hdecode
  · have hstop := stop_le_of_decodeChars_ok hdec
    exact h.publish hbusy (by omega) (fun hencode => by simp [hop] at hencode) fun _ => rfl
  · have hj : j ≤ s.cfg.inCap := by
      have := lt_length_of_decodeChars_invalid hdec
      omega
    obtain ⟨hdone, -, -⟩ := h.statusInv.busyIsClean hbusy
    obtain ⟨hout, hcons, -⟩ := h.resultFits
    exact
      { h with
        statusInv := h.statusInv.failed hbusy hop rfl
        lenLegal := fun hb => by cases hb
        noResult := fun _ => h.noResult hdone
        noErrPos := fun hcode => absurd rfl hcode
        encodeInfo := fun hd => by simp [Status.failed, hdone] at hd
        decodeInfo := fun hd => by simp [Status.failed, hdone] at hd
        resultFits := ⟨hout, hcons, toNat_ofNat_le hj⟩
        inReset := fun hreset => absurd hreset (h.resetReleased_of_busy hbusy) }

theorem assertReset (h : s.Inv) : s.assertReset.Inv :=
  of_registers_reset h.cfgLegal rfl ⟨rfl, rfl, rfl, rfl⟩ ⟨rfl, rfl⟩ ⟨rfl, rfl⟩

theorem releaseReset (h : s.Inv) : s.releaseReset.Inv :=
  { h with
    statusInv := h.statusInv.congr rfl rfl
    inReset := fun hreset => by cases hreset }

/-- Nothing but the reset clause speaks of IN_LEN and IRQ_EN. -/
theorem setHostRegisters (h : s.Inv) (hreset : s.resetAsserted = false) (w : Word) (ie : IrqEn) :
    State.Inv { s with inLen := w, irqEn := ie } :=
  { h with
    statusInv := h.statusInv.congr rfl rfl
    inReset := fun hr => by simp [hreset] at hr }

theorem writeIn (h : s.Inv) {i : Nat} {bs : List Byte} (hcap : i + bs.length ≤ s.cfg.inCap) : (s.writeIn i bs).Inv :=
  { h with
    statusInv := h.statusInv.congr rfl rfl
    inMemWf := setList_wf bs i h.inMemWf
    inMemBelow := setList_below bs h.inMemBelow hcap }

theorem drop (h : s.Inv) (hbusy : s.status.busy = true) : s.drop.Inv :=
  { h with
    statusInv := h.statusInv.drop
    inReset := fun hreset => absurd hreset (h.resetReleased_of_busy hbusy) }

theorem abort (h : s.Inv) (hbusy : s.status.busy = true) : s.abort.Inv :=
  { h with
    statusInv := h.statusInv.congr rfl rfl
    outMemWf := setList_wf _ 0 h.outMemWf
    outMemBelow := setList_below _ h.outMemBelow (by simpa [State.abortBytes] using h.length_pendingOut_le hbusy) }

/-- The result registers become 0 (R24), with a STATUS that has no DONE and with any latches. -/
theorem clearResultsWith (h : s.Inv) {st : Status} {op : Op} {n : Nat}
    (hstatus : State.StatusInv { s.clearResults with status := st, opL := op, nL := n }) (hdone : st.done = false)
    (hlen : st.busy = true → n ≤ s.cfg.inCap) (hreset : s.resetAsserted = true → st = Status.reset) :
    State.Inv { s.clearResults with status := st, opL := op, nL := n } :=
  { h with
    statusInv := hstatus
    lenLegal := hlen
    noResult := fun _ => ⟨rfl, rfl, rfl⟩
    noErrPos := fun _ => rfl
    encodeInfo := fun hd => by simp [hdone] at hd
    decodeInfo := fun hd => by simp [hdone] at hd
    resultFits := ⟨Nat.zero_le _, Nat.zero_le _, Nat.zero_le _⟩
    inReset := fun hr => ⟨hreset hr, (h.inReset hr).2⟩ }

theorem clearStatus (h : s.Inv) : s.clearStatus.Inv :=
  h.clearResultsWith (.of_status_reset rfl) rfl (fun hb => by cases hb) fun _ => rfl

theorem accept (h : s.Inv) (hreset : s.resetAsserted = false) (op : Op) (hlen : s.inLen.toNat ≤ s.cfg.inCap) :
    (s.accept op).Inv :=
  h.clearResultsWith (.accept op) rfl (fun _ => hlen) fun hr => by simp [hreset] at hr

theorem rejectLength (h : s.Inv) (hreset : s.resetAsserted = false) (hidle : s.status.busy = false) (op : Op) :
    (s.rejectLength op).Inv :=
  h.clearResultsWith (.rejectLength op hidle) rfl h.lenLegal fun hr => by simp [hreset] at hr

theorem rejectCommand (h : s.Inv) (hreset : s.resetAsserted = false) (hidle : s.status.busy = false) :
    s.rejectCommand.Inv :=
  h.clearResultsWith (.rejectCommand hidle) rfl h.lenLegal fun hr => by simp [hreset] at hr

end State.Inv

/-- Settles O48: at reset every register and both buffers are at their reset values. -/
theorem invariantHoldsAtReset : Obligations.InvariantHoldsAtReset :=
  .of_registers_reset (by decide) rfl ⟨rfl, rfl, rfl, rfl⟩ ⟨rfl, rfl⟩ ⟨rfl, rfl⟩

theorem inv_of_stepEffect {s t : State} (hs : s.Inv) (h : StepEffect s t) : t.Inv := by
  cases h with
  | quiet ht => exact hs.of_block_eq ht
  | completes _ hbusy ht => exact (hs.complete hbusy).of_block_eq ht
  | resets _ ht => exact hs.assertReset.of_block_eq ht
  | releases _ ht => exact hs.releaseReset.of_block_eq ht
  | setsInLen w _ hreset ht => exact (hs.setHostRegisters hreset w s.irqEn).of_block_eq ht
  | setsIrqEn w _ hreset ht => exact (hs.setHostRegisters hreset s.inLen (.ofWord w)).of_block_eq ht
  | stores _ size w i _ _ _ hcap ht => exact (hs.writeIn (by simpa using hcap)).of_block_eq ht
  | drops _ _ _ _ hbusy _ ht => exact (hs.drop hbusy).of_block_eq ht
  | clears _ _ ht => exact hs.clearStatus.of_block_eq ht
  | aborts _ hbusy ht => exact (hs.abort hbusy).clearStatus.of_block_eq ht
  | accepts _ op _ hreset _ hlen ht => exact (hs.accept hreset op hlen).of_block_eq ht
  | rejectsLength _ op _ hreset hidle ht => exact (hs.rejectLength hreset hidle op).of_block_eq ht
  | rejectsCommand _ _ hreset hidle ht => exact (hs.rejectCommand hreset hidle).of_block_eq ht

/-- Settles O49: each effect a step can have keeps the invariant. -/
theorem everyStepKeepsTheInvariant : Obligations.EveryStepKeepsTheInvariant :=
  fun _ _ hs h => inv_of_stepEffect hs (stepEffect_of_step h)

/-! ### What changes HAZ, the buffers and the host's registers -/

@[simp] theorem complete_cfg (s : State) : s.complete.cfg = s.cfg := (complete_frame s).1

@[simp] theorem complete_inLen (s : State) : s.complete.inLen = s.inLen := by
  obtain ⟨-, hlen, -⟩ := complete_frame s
  exact hlen

@[simp] theorem complete_irqEn (s : State) : s.complete.irqEn = s.irqEn := by
  obtain ⟨-, -, hirq, -⟩ := complete_frame s
  exact hirq

@[simp] theorem complete_status_haz (s : State) : s.complete.status.haz = s.status.haz := by
  obtain ⟨-, -, -, -, -, -, -, -, -, -, -, -, hhaz, -, -⟩ := complete_frame s
  exact hhaz

@[simp] theorem complete_status_busy (s : State) : s.complete.status.busy = false := by
  obtain ⟨-, -, -, -, -, -, -, -, -, -, -, -, -, -, hbusy⟩ := complete_frame s
  exact hbusy

/-- The engine never writes IN_MEM (R45). -/
@[simp] theorem byteAt_inMem_complete (s : State) (i : Nat) : s.complete.byteAt .inMem i = s.byteAt .inMem i := by
  obtain ⟨-, -, -, -, -, hmem, -, -, -, -, hepoch, -⟩ := complete_frame s
  exact byteAt_congr (sp := .inMem) hmem hepoch i

/-- HAZ after a step: as it was, cleared by CLEAR or reset, or set by a dropped write (R19, R70, R118). -/
theorem haz_cases {s t : State} (h : step s = .next t) :
    t.status.haz = s.status.haz ∨
    (t.status.haz = false ∧ (s.takes (.txn (.write 0x00C .four (encode .clear))) ∨ s.takes .assertReset)) ∨
    (t.status.haz = true ∧ s.status.busy = true ∧ ∃ off size w, s.takes (.txn (.write off size w)) ∧
      ((0x10000 ≤ off.toNat ∧ off.toNat < 0x20000) ∨
       (off = 0x00C ∧ size = .four ∧ w ≠ encode .nop ∧ w ≠ encode .clear))) := by
  cases stepEffect_of_step h with
  | resets htakes ht => exact .inr (.inl ⟨by rw [status_eq_of_block_eq ht]; rfl, .inr htakes⟩)
  | clears htakes _ ht | aborts htakes _ ht => exact .inr (.inl ⟨by rw [status_eq_of_block_eq ht]; rfl, .inl htakes⟩)
  | drops off size w htakes hbusy hwhere ht =>
    exact .inr (.inr ⟨by rw [status_eq_of_block_eq ht]; rfl, hbusy, off, size, w, htakes, hwhere⟩)
  | completes _ _ ht => exact .inl (by rw [status_eq_of_block_eq ht, complete_status_haz])
  | quiet ht | releases _ ht | setsInLen _ _ _ ht | setsIrqEn _ _ _ ht | stores _ _ _ _ _ _ _ _ ht
  | accepts _ _ _ _ _ _ ht | rejectsLength _ _ _ _ _ ht | rejectsCommand _ _ _ _ ht =>
    exact .inl (congrArg Status.haz (status_eq_of_block_eq ht) :)

/-- Settles O51, by the three things a step can do to HAZ. -/
theorem hazChangesOnlyAsStated : Obligations.HazChangesOnlyAsStated := by
  intro s t h
  rcases haz_cases h with hkept | ⟨hclear, hwhy⟩ | ⟨hset, hbusy, hdropped⟩
  · exact ⟨fun hs => .inl (hkept.trans hs), fun hs ht => by simp [hkept, hs] at ht⟩
  · exact ⟨fun _ => .inr hwhy, fun _ ht => by simp [hclear] at ht⟩
  · exact ⟨fun _ => .inl hset, fun _ _ => ⟨hbusy, hdropped⟩⟩

/-- Settles O52: of the effects a step can have, a reset and a stored write alone touch IN_MEM. -/
theorem inMemChangesOnlyByIdleHostWrites : Obligations.InMemChangesOnlyByIdleHostWrites := by
  intro s t i h hchange
  cases stepEffect_of_step h with
  | resets htakes _ => exact .inl htakes
  | stores off size w a htakes hidle hoff _ ht =>
    refine .inr ⟨hidle, off, size, w, htakes, ?_⟩
    by_contra houtside
    apply hchange
    rw [byteAt_eq_of_block_eq ht, byteAt_writeIn]
    split
    · rw [List.getElem?_eq_none (by rw [length_bytesOfWord]; omega), Option.getD_none]
    · rfl
  | completes _ _ ht => exact absurd (by rw [byteAt_eq_of_block_eq ht, byteAt_inMem_complete]) hchange
  | quiet ht | releases _ ht | setsInLen _ _ _ ht | setsIrqEn _ _ _ ht | drops _ _ _ _ _ _ ht | clears _ _ ht
  | aborts _ _ ht | accepts _ _ _ _ _ _ ht | rejectsLength _ _ _ _ _ ht | rejectsCommand _ _ _ _ ht =>
    exact absurd (byteAt_eq_of_block_eq ht .inMem i :) hchange

/-- Settles O53: of the effects a step can have, a reset, a completion and an abort alone touch OUT_MEM. -/
theorem outMemChangesOnlyByTheRunningResult : Obligations.OutMemChangesOnlyByTheRunningResult := by
  intro s t i h hchange
  cases stepEffect_of_step h with
  | resets htakes _ => exact .inl htakes
  | completes hturn hbusy ht =>
    have hbyte : t.byteAt .outMem i = (s.pendingOut[i]?).getD (s.byteAt .outMem i) := by
      rw [byteAt_eq_of_block_eq ht, byteAt_complete]
    refine .inr ⟨hbusy, by rw [status_eq_of_block_eq ht, complete_status_busy], ?_, .inl hturn⟩
    cases hnew : s.pendingOut[i]? with
    | none => exact absurd (by rw [hbyte, hnew, Option.getD_none]) hchange
    | some new => rw [hbyte, hnew, Option.getD_some]
  | aborts htakes hbusy ht =>
    have hbyte : t.byteAt .outMem i = s.abort.byteAt .outMem i := (byteAt_eq_of_block_eq ht .outMem i :)
    rw [hbyte, byteAt_abort] at hchange ⊢
    refine .inr ⟨hbusy, by rw [status_eq_of_block_eq ht]; rfl, ?_, .inr htakes⟩
    split at hchange
    · rw [if_pos ‹_›]
      exact (racyByte_oldOrNew s _ i).resolve_left hchange
    · exact absurd rfl hchange
  | quiet ht | releases _ ht | setsInLen _ _ _ ht | setsIrqEn _ _ _ ht | stores _ _ _ _ _ _ _ _ ht
  | drops _ _ _ _ _ _ ht | clears _ _ ht | accepts _ _ _ _ _ _ ht | rejectsLength _ _ _ _ _ ht
  | rejectsCommand _ _ _ _ ht =>
    exact absurd (byteAt_eq_of_block_eq ht .outMem i :) hchange

/-- Settles O54: of the effects a step can have, a reset and the register's own write alone touch it. -/
theorem controlRegistersChangeOnlyByTheirWrites : Obligations.ControlRegistersChangeOnlyByTheirWrites := by
  intro s t h
  cases stepEffect_of_step h with
  | resets htakes ht => exact ⟨(cfg_eq_of_block_eq ht :), fun _ => .inl htakes, fun _ => .inl htakes⟩
  | setsInLen w htakes _ ht =>
    exact ⟨(cfg_eq_of_block_eq ht :), fun _ => .inr ⟨w, htakes, (inLen_eq_of_block_eq ht :)⟩,
      absurd (irqEn_eq_of_block_eq ht :)⟩
  | setsIrqEn w htakes _ ht =>
    exact ⟨(cfg_eq_of_block_eq ht :), absurd (inLen_eq_of_block_eq ht :),
      fun _ => .inr ⟨w, htakes, (irqEn_eq_of_block_eq ht :)⟩⟩
  | completes _ _ ht =>
    exact ⟨(cfg_eq_of_block_eq ht).trans (complete_cfg s), absurd ((inLen_eq_of_block_eq ht).trans (complete_inLen s)),
      absurd ((irqEn_eq_of_block_eq ht).trans (complete_irqEn s))⟩
  | quiet ht | releases _ ht | stores _ _ _ _ _ _ _ _ ht | drops _ _ _ _ _ _ ht | clears _ _ ht | aborts _ _ ht
  | accepts _ _ _ _ _ _ ht | rejectsLength _ _ _ _ _ ht | rejectsCommand _ _ _ _ ht =>
    exact ⟨(cfg_eq_of_block_eq ht :), absurd (inLen_eq_of_block_eq ht :), absurd (irqEn_eq_of_block_eq ht :)⟩

end Sys2Proof.Machine
end

section
/-! PROOFS for 20_memory.md: what a running operation reads is frozen, a completion is a function of it, and the host port's
transactions. -/

namespace Sys2Proof.Machine

/-! ### The running operation (R45, R49) -/

/-- The state stripped of all but the running operation: its latches, the buffers, and the epoch, which selects what an
unwritten byte reads as. -/
def State.operation (s : State) : State :=
  { State.reset with opL := s.opL, nL := s.nL, inMem := s.inMem, outMem := s.outMem, epoch := s.epoch }

/-- A step from busy to busy neither ends nor starts an operation, and the host's other writes do not reach it (R45, R118). -/
theorem operation_eq_of_busy_step {s t : State} (h : step s = .next t) (hs : s.status.busy = true)
    (ht : t.status.busy = true) : t.operation = s.operation := by
  cases stepEffect_of_step h with
  | quiet hb | releases _ hb | setsInLen _ _ _ hb | setsIrqEn _ _ _ hb | drops _ _ _ _ _ _ hb =>
    exact (congrArg State.operation hb :)
  | completes _ _ hb =>
    rw [status_eq_of_block_eq hb, complete_status_busy] at ht
    cases ht
  | resets _ hb | aborts _ _ hb =>
    rw [status_eq_of_block_eq hb] at ht
    cases ht
  | stores _ _ _ _ _ hidle _ _ _ | clears _ hidle _ | accepts _ _ _ _ hidle _ _ | rejectsLength _ _ _ _ hidle _
  | rejectsCommand _ _ _ hidle _ =>
    rw [hidle] at hs
    cases hs

theorem busy_of_busySteps {s t : State} (h : BusySteps s t) : t.status.busy = true := by
  cases h with
  | refl hbusy => exact hbusy
  | tail _ _ hbusy => exact hbusy

theorem operation_eq_of_busySteps {s t : State} (h : BusySteps s t) : t.operation = s.operation := by
  induction h with
  | refl _ => rfl
  | tail hsteps hstep hbusy ih => exact (operation_eq_of_busy_step hstep (busy_of_busySteps hsteps) hbusy).trans ih

/-- Settles O55, by induction on the busy steps; the input and the result are read off the operation alone. -/
theorem runningOperationIsFrozen : Obligations.RunningOperationIsFrozen := by
  intro s t h
  have hop := operation_eq_of_busySteps h
  exact ⟨(congrArg State.opL hop :), (congrArg State.nL hop :), (congrArg State.inMem hop :),
    (congrArg State.outMem hop :), (congrArg State.engineData hop :), (congrArg State.pendingOut hop :)⟩

/-! ### A completion is a function of its input (90_conflicts.md C7) -/

/-- What a completion reports: the result registers and DONE, ERR and ERR_CODE (R71). -/
structure Report where
  outLen     : Word
  errPos     : Word
  consumed   : Word
  resultInfo : ResultInfo
  done       : Bool
  err        : Bool
  errCode    : ErrCode

/-- The report a state shows. -/
def State.report (s : State) : Report :=
  { outLen := s.outLen, errPos := s.errPos, consumed := s.consumed, resultInfo := s.resultInfo,
    done := s.status.done, err := s.status.err, errCode := s.status.errCode }

/-- The report of a completion that publishes `m` bytes after reading `n` (R71). -/
def Report.success (m n : Nat) (ri : ResultInfo) : Report :=
  { outLen := BitVec.ofNat 32 m, errPos := 0, consumed := BitVec.ofNat 32 n, resultInfo := ri,
    done := true, err := false, errCode := .none }

/-- The report of an operation with the given latches on the given input (R71, R72). -/
def reportOf (op : Op) (n : Nat) (data : List Byte) : Report :=
  match op with
  | .encode => .success (encodeBytes data).length n (ResultInfo.ofEncode (encPad n))
  | .decode =>
    match decodeChars data with
    | .ok out stop => .success out.length stop (ResultInfo.ofDecode n stop)
    | .invalidSymbol j =>
      { outLen := 0, errPos := BitVec.ofNat 32 j, consumed := 0, resultInfo := ResultInfo.reset,
        done := false, err := true, errCode := .invalidSymbol }

/-- The acceptance cleared whatever a completion does not write (R24, R68), so nothing older shows in its report. -/
theorem report_complete {s : State} (h : s.Inv) (hbusy : s.status.busy = true) :
    s.complete.report = reportOf s.opL s.nL s.engineData := by
  obtain ⟨hdone, herr, hcode⟩ := h.statusInv.busyIsClean hbusy
  obtain ⟨hout, hcons, hinfo⟩ := h.noResult hdone
  have hpos : s.errPos = 0 := h.noErrPos (by simp [hcode])
  cases hop : s.opL with
  | encode =>
    rw [complete_of_encode hop]
    simp [State.report, State.completeEncode, reportOf, Report.success, Status.completed, hpos, herr, hcode]
  | decode =>
    cases hdec : decodeChars s.engineData with
    | ok out stop =>
      rw [complete_of_decode_ok hop hdec]
      simp [State.report, reportOf, Report.success, hdec, Status.completed, hpos, herr, hcode]
    | invalidSymbol j =>
      rw [complete_of_decode_invalid hop hdec]
      simp [State.report, reportOf, hdec, Status.failed, hout, hcons, hinfo, hdone]

/-- OUT_LEN counts the bytes written, none for a failed DECODE (R46, R72). -/
theorem outLen_complete {s : State} (h : s.Inv) (hbusy : s.status.busy = true) :
    s.complete.outLen = BitVec.ofNat 32 s.pendingOut.length := by
  obtain ⟨hdone, -, -⟩ := h.statusInv.busyIsClean hbusy
  obtain ⟨hout, -, -⟩ := h.noResult hdone
  rcases complete_cases s with ⟨-, he⟩ | ⟨-, _, -, he⟩ | ⟨-, hnone, _, -, he⟩ <;> rw [he]
  simpa [hnone] using hout

/-- Below OUT_LEN a completion has written the pending bytes (R46). -/
theorem byteAt_complete_of_lt_outLen {s : State} (h : s.Inv) (hbusy : s.status.busy = true) {i : Nat}
    (hi : i < s.complete.outLen.toNat) : some (s.complete.byteAt .outMem i) = s.pendingOut[i]? := by
  rw [outLen_complete h hbusy] at hi
  have hlt : i < s.pendingOut.length := hi.trans_le (toNat_ofNat_le le_rfl)
  rw [byteAt_complete, List.getElem?_eq_getElem hlt, Option.getD_some]

/-- Settles O19: both reports are `reportOf` of the same latches and input, and both write the same pending bytes. -/
theorem completionDependsOnlyOnItsInput : Obligations.CompletionDependsOnlyOnItsInput := by
  intro s₁ s₂ h₁ h₂ hbusy₁ hbusy₂ hop hlen hbytes
  have hdata : s₁.engineData = s₂.engineData := by
    rw [State.engineData, State.engineData, ← hlen]
    exact memRead_congr fun k hk => by simpa using hbytes k hk
  have hpending : s₁.pendingOut = s₂.pendingOut := by
    simp only [State.pendingOut, hop, hdata]
  have hreport : s₁.complete.report = s₂.complete.report := by
    rw [report_complete h₁ hbusy₁, report_complete h₂ hbusy₂, hop, hlen, hdata]
  rw [engineTurn_busy hbusy₁, engineTurn_busy hbusy₂]
  have hout : s₁.complete.outLen = s₂.complete.outLen := (congrArg Report.outLen hreport :)
  refine ⟨hout, (congrArg Report.errPos hreport :), (congrArg Report.consumed hreport :),
    (congrArg Report.resultInfo hreport :), (congrArg Report.done hreport :), (congrArg Report.err hreport :),
    (congrArg Report.errCode hreport :), fun i hi => Option.some.inj ?_⟩
  rw [byteAt_complete_of_lt_outLen h₁ hbusy₁ hi, byteAt_complete_of_lt_outLen h₂ hbusy₂ (hout ▸ hi), hpending]

/-! ### The address map against R36 -/

/-- The registers stand at the multiples of 4 up to 0x28 (R37). -/
theorem regAt_eq_none_iff (off : Offset) : regAt off = none ↔ ¬ (off.toNat % 4 = 0 ∧ off.toNat ≤ 0x28) := by
  constructor
  · rintro hnone ⟨hmod, hle⟩
    have hoff : off = BitVec.ofNat 18 (4 * (off.toNat / 4)) := by
      rw [Nat.mul_div_cancel' (Nat.dvd_of_mod_eq_zero hmod), BitVec.ofNat_toNat, BitVec.setWidth_eq]
    have hregs : ∀ k < 11, regAt (BitVec.ofNat 18 (4 * k)) ≠ none := by decide
    rw [hoff] at hnone
    exact hregs _ (by omega) hnone
  · refine fun hbad => Option.eq_none_iff_forall_ne_some.2 fun r hr => hbad ?_
    cases r <;> simp [regAt_some hr]

theorem windowTarget_eq_none_iff (sp : Space) (cap i n : Nat) :
    windowTarget sp cap i n = none ↔ (i % n ≠ 0 ∨ cap < i + n) := by
  unfold windowTarget
  split <;> simp only [reduceCtorEq, false_iff, true_iff] <;> omega

theorem size_bytes_eq_four_iff (size : Size) : size.bytes = 4 ↔ size = .four := by
  cases size <;> decide

theorem size_bytes_pos (size : Size) : 0 < size.bytes := by
  cases size <;> decide

theorem size_bytes_le (size : Size) : size.bytes ≤ 4 := by
  cases size <;> decide

/-- Both windows start at a multiple of every size, so index and offset are aligned alike (R41). -/
theorem sub_window_mod_bytes {o : Nat} (size : Size) :
    (0x10000 ≤ o → (o - 0x10000) % size.bytes = o % size.bytes) ∧
    (0x20000 ≤ o → (o - 0x20000) % size.bytes = o % size.bytes) := by
  cases size <;> simp only [Size.bytes] <;> omega

/-- The address map reaches nothing exactly under the conditions of R36: in the register block, in the unmapped range above it,
and in the two windows. -/
theorem target_eq_none_iff (c : Config) (off : Offset) (size : Size) :
    target c off size = none ↔ slverrCondition c off.toNat size.bytes := by
  have hpos := size_bytes_pos size
  obtain ⟨hin, hout⟩ := sub_window_mod_bytes (o := off.toNat) size
  simp only [target, slverrCondition, unmapped]
  split
  · by_cases hsize : size = .four
    · rw [if_pos hsize, Option.map_eq_none_iff, regAt_eq_none_iff, (size_bytes_eq_four_iff size).2 hsize]
      omega
    · rw [if_neg hsize]
      have hfour := mt (size_bytes_eq_four_iff size).1 hsize
      exact iff_of_true rfl (by omega)
  · split
    · exact iff_of_true rfl (by omega)
    · split <;> rw [windowTarget_eq_none_iff] <;> omega

/-- A transaction outside the conditions of R36 reaches something. -/
theorem exists_target {c : Config} {off : Offset} {size : Size} (h : ¬ slverrCondition c off.toNat size.bytes) :
    ∃ x, target c off size = some x :=
  Option.ne_none_iff_exists'.1 (mt (target_eq_none_iff c off size).1 h)

/-- A legal access at an IN window offset reaches IN_MEM from the offset's index on (R35). -/
theorem target_inWindow {c : Config} {off : Offset} {size : Size} (hlow : 0x10000 ≤ off.toNat)
    (hhigh : off.toNat < 0x20000) (hlegal : ¬ slverrCondition c off.toNat size.bytes) :
    target c off size = some (.window .inMem (off.toNat - 0x10000)) := by
  obtain ⟨x, hx⟩ := exists_target hlegal
  rcases target_some hx with ⟨r, -, -, -, hreg⟩ | ⟨i, rfl, hoff, -⟩ | ⟨i, -, hoff, -⟩
  · omega
  · rw [hx, hoff, Nat.add_sub_cancel_left]
  · omega

/-- A legal access at an OUT window offset reaches OUT_MEM from the offset's index on (R35). -/
theorem target_outWindow {c : Config} {off : Offset} {size : Size} (hlow : 0x20000 ≤ off.toNat)
    (hlegal : ¬ slverrCondition c off.toNat size.bytes) :
    target c off size = some (.window .outMem (off.toNat - 0x20000)) := by
  obtain ⟨x, hx⟩ := exists_target hlegal
  rcases target_some hx with ⟨r, -, -, -, hreg⟩ | ⟨i, -, -, hlt, -⟩ | ⟨i, rfl, hoff, -⟩
  · omega
  · omega
  · rw [hx, hoff, Nat.add_sub_cancel_left]

/-! ### SLVERR (R36) -/

/-- A transaction that reaches nothing gets SLVERR and changes nothing. -/
theorem transact_of_slverr {s : State} {x : Txn} (h : slverrCondition s.cfg x.offset x.bytes) :
    ∃ r, r.resp = .slverr ∧ transact x s = .next (s.respond r) ∧
      ∀ off size, x = .read off size → r.rdata = some 0 := by
  cases x with
  | read off size =>
    have hnone := (target_eq_none_iff s.cfg off size).2 h
    exact ⟨slverrRead, rfl, by simp [transact, State.performRead, hnone], fun _ _ _ => rfl⟩
  | write off size w =>
    have hnone := (target_eq_none_iff s.cfg off size).2 h
    exact ⟨slverrWrite, rfl, by simp [transact, performWrite, hnone], fun _ _ hread => by cases hread⟩

/-- A READ that reaches something gets OKAY. -/
theorem resp_performRead_of_target {s : State} {off : Offset} {size : Size} {x : Target}
    (hx : target s.cfg off size = some x) : ∃ d, (s.performRead off size).resp = some (okayRead d) := by
  simp only [State.performRead, hx]
  split
  · cases ‹some x = none›
  · exact ⟨_, rfl⟩
  · exact ⟨_, rfl⟩
  · split <;> exact ⟨_, rfl⟩

/-- A register write leaves the port's response as it was given. -/
theorem resp_writeReg {r : Reg} {w : Word} {s t : State} (h : writeReg r w s = .next t) : t.resp = s.resp := by
  cases r with
  | cmd =>
    obtain ⟨-, -, -, -, -, -, -, -, hresp⟩ := commandWrite_frame h
    exact hresp
  | _ =>
    injection h with h
    rw [← h]

/-- A WRITE that reaches something gets OKAY. -/
theorem resp_performWrite_of_target {s t : State} {off : Offset} {size : Size} {w : Word} {x : Target}
    (hx : target s.cfg off size = some x) (h : performWrite off size w s = .next t) : t.resp = some okayWrite := by
  simp only [performWrite, hx] at h
  split at h
  · cases ‹some x = none›
  · exact resp_writeReg h
  · injection h with h
    rw [← h, State.writeInWindow]
    split <;> rfl
  · injection h with h
    rw [← h, respond_resp]

theorem transact_of_not_slverr {s : State} {x : Txn} (h : ¬ slverrCondition s.cfg x.offset x.bytes) :
    ∃ t r, transact x s = .next t ∧ t.resp = some r ∧ r.resp = .okay := by
  cases x with
  | read off size =>
    obtain ⟨y, hy⟩ := exists_target h
    obtain ⟨d, hd⟩ := resp_performRead_of_target hy
    exact ⟨_, _, rfl, hd, rfl⟩
  | write off size w =>
    obtain ⟨y, hy⟩ := exists_target h
    obtain ⟨t, ht⟩ := performWrite_next off size w s
    exact ⟨t, _, ht, resp_performWrite_of_target hy ht, rfl⟩

/-- Settles O38: the address map reaches nothing exactly under the four conditions. -/
theorem slverrExactlyOnBadTransactions : Obligations.SlverrExactlyOnBadTransactions := by
  intro s x _
  by_cases h : slverrCondition s.cfg x.offset x.bytes
  · obtain ⟨r, hr, ht, hzero⟩ := transact_of_slverr h
    exact ⟨_, r, ht, rfl, iff_of_true hr h, fun _ => ⟨rfl, hzero⟩⟩
  · obtain ⟨t, r, ht, hresp, hr⟩ := transact_of_not_slverr h
    have hokay : r.resp ≠ .slverr := by simp [hr]
    exact ⟨t, r, ht, hresp, iff_of_false hokay h, fun hbad => absurd hbad hokay⟩

/-! ### The windows (R38, R39, R42, R43) -/

/-- The lanes of a window's bytes on the bus, 0 above the access (R34, R39). -/
theorem extractLsb'_wordOfBytes_memRead (s : State) (sp : Space) (i : Nat) (size : Size) {k : Nat} (hk : k < 4) :
    (wordOfBytes (s.memRead sp i size.bytes)).extractLsb' (8 * k) 8 =
      if k < size.bytes then s.byteAt sp (i + k) else 0 := by
  rw [extractLsb'_wordOfBytes _ (by simpa using size_bytes_le size) k hk, getElem?_memRead]
  split <;> rfl

/-- Settles O42: byte `i + k` becomes lane k of the data, and an index outside the access is not written. -/
theorem inWindowWriteStoresItsBytes : Obligations.InWindowWriteStoresItsBytes := by
  intro s off size w hidle hlow hhigh hlegal
  have ht : transact (.write off size w) s =
      .next ((s.respond okayWrite).writeIn (off.toNat - 0x10000) (bytesOfWord size.bytes w)) := by
    simp [transact, performWrite, target_inWindow hlow hhigh hlegal, State.writeInWindow, hidle]
  refine ⟨_, ht, fun k hk => ?_, fun i hi => ?_, rfl⟩
  · rw [byteAt_writeIn, if_pos (Nat.le_add_right _ _), Nat.add_sub_cancel_left, getElem?_bytesOfWord, if_pos hk,
      Option.getD_some]
  · rw [byteAt_writeIn]
    split
    · rw [getElem?_bytesOfWord, if_neg (by omega)]
      rfl
    · rfl

/-- Settles O44: an IN window READ does not look at BUSY. -/
theorem inWindowReadReturnsItsBytes : Obligations.InWindowReadReturnsItsBytes := by
  intro s off size hlow hhigh hlegal
  refine ⟨wordOfBytes (s.memRead .inMem (off.toNat - 0x10000) size.bytes), ?_,
    fun k hk => extractLsb'_wordOfBytes_memRead s .inMem _ size hk⟩
  simp [transact, State.performRead, target_inWindow hlow hhigh hlegal, okayRead]

/-- Settles O45: while idle an OUT window READ makes no choices. -/
theorem outWindowReadReturnsItsBytes : Obligations.OutWindowReadReturnsItsBytes := by
  intro s off size hidle hlow hlegal
  refine ⟨wordOfBytes (s.memRead .outMem (off.toNat - 0x20000) size.bytes), ?_,
    fun k hk => extractLsb'_wordOfBytes_memRead s .outMem _ size hk⟩
  simp [transact, State.performRead, target_outWindow hlow hlegal, hidle, okayRead]

/-- Settles O39: the eight registers by their offsets, the OUT window by the address map. -/
theorem writesToReadOnlyStateAreIgnored : Obligations.WritesToReadOnlyStateAreIgnored := by
  intro s w
  constructor
  · have write {off : Offset} {r : Reg} (h : regAt off = some r) := transact_write_of_regAt s w h
    simp only [List.forall_mem_cons]
    exact ⟨write (r := .id) rfl, write (r := .inCap) rfl, write (r := .outCap) rfl, write (r := .status) rfl,
      write (r := .outLen) rfl, write (r := .errPos) rfl, write (r := .consumed) rfl, write (r := .resultInfo) rfl,
      fun _ hnil => absurd hnil List.not_mem_nil⟩
  · intro off size hlow hlegal
    simp [transact, performWrite, target_outWindow hlow hlegal, okayWrite]

end Sys2Proof.Machine
end

section
/-! PROOFS for 30_encoding.md: the command words and their decoder, a reserved word at the port, the alphabet's two tables,
and the WAIT loop. -/

namespace Sys2Proof.Machine

/-! ### Command words (R55 to R57) -/

theorem roundTrip (i : Instr) : Laws.RoundTrip.Statement i := by
  cases i with
  | nop => exact Laws.RoundTrip.nop
  | encode => exact Laws.RoundTrip.encode
  | decode => exact Laws.RoundTrip.decode
  | clear => exact Laws.RoundTrip.clear

@[simp] theorem decode_encode (i : Instr) : decode (encode i) = .ok i := by
  obtain ⟨hdecode, -⟩ := roundTrip i
  exact hdecode

theorem decode_eq_ok_iff_encode_eq {w : Word} {i : Instr} : decode w = .ok i ↔ encode i = w :=
  ⟨encode_of_decode, fun h => h ▸ decode_encode i⟩

/-- A word is its two fields (R55). -/
theorem rsvdField_append_opcodeField (w : Word) : rsvdField w ++ opcodeField w = w :=
  BitVec.extractLsb'_append_extractLsb' (w := 24) (len := 8)

theorem encode_eq_iff_fields {w : Word} {i : Instr} :
    encode i = w ↔ rsvdField w = 0 ∧ opcodeField w = opcodeOf i := by
  constructor
  · rintro rfl
    cases i <;> exact ⟨rfl, rfl⟩
  · rintro ⟨hrsvd, hop⟩
    rw [← rsvdField_append_opcodeField w, hrsvd, hop]
    rfl

/-- The opcodes of R56 are 0 to 3, with no gap. -/
theorem exists_opcodeOf_eq_iff {b : BitVec 8} : (∃ i, b = opcodeOf i) ↔ b ≤ 3#8 := by
  constructor
  · rintro ⟨i, rfl⟩
    cases i <;> decide
  · intro h
    have hb : b = 0x00 ∨ b = 0x01 ∨ b = 0x02 ∨ b = 0x03 := by bv_omega
    rcases hb with rfl | rfl | rfl | rfl
    · exact ⟨.nop, rfl⟩
    · exact ⟨.encode, rfl⟩
    · exact ⟨.decode, rfl⟩
    · exact ⟨.clear, rfl⟩

/-- A word that is no command's is reserved (R57). -/
theorem exists_decode_eq_error {w : Word} (h : ∀ i, w ≠ encode i) : ∃ why, decode w = .error why := by
  cases hd : decode w with
  | ok i => exact absurd (encode_of_decode hd).symm (h i)
  | error why => exact ⟨why, rfl⟩

/-- Settles O1: a word decodes to a command exactly when its two fields are the command's. -/
theorem decodeIsTotalAndExact : Obligations.DecodeIsTotalAndExact := by
  have hfields (w : Word) (i : Instr) : decode w = .ok i ↔ rsvdField w = 0 ∧ opcodeField w = opcodeOf i :=
    decode_eq_ok_iff_encode_eq.trans encode_eq_iff_fields
  have hvalid (w : Word) : (∃ i, decode w = .ok i) ↔ rsvdField w = 0 ∧ opcodeField w ≤ 3#8 := by
    simp only [hfields, exists_and_left, exists_opcodeOf_eq_iff]
  refine ⟨hvalid, hfields, fun w hw => exists_decode_eq_error fun i hi => hw ?_⟩
  exact (hvalid w).1 ⟨i, hi ▸ decode_encode i⟩

/-- Settles O2: one direction command by command, the other by the fields of the word. -/
theorem decodeAndEncodeAgree : Obligations.DecodeAndEncodeAgree :=
  ⟨fun i _ => roundTrip i, fun _ _ => encode_of_decode⟩

/-- Settles O3: the four command words are those of `encode`, the reserved ones are evaluated. -/
theorem sampleWordsDecode : Obligations.SampleWordsDecode :=
  ⟨decode_encode .nop, decode_encode .encode, decode_encode .decode, decode_encode .clear, rfl, rfl, rfl, rfl, rfl⟩

/-! ### A reserved word at the port (R59) -/

theorem commandWrite_of_error {w : Word} {why : ReservedWord} (s : State) (h : decode w = .error why) :
    commandWrite w s = .next s.reservedCommand := by
  simp [commandWrite, h]

/-- A host turn that writes a reserved word to CMD: answered OKAY, and the word is rejected or dropped. -/
theorem step_reservedWord {s : State} {rest : List Input} {w : Word} (hturn : s.turn = .host)
    (hreset : s.resetAsserted = false) (hin : s.inputs = .txn (.write 0x00C .four w) :: rest)
    (hw : ∀ i, w ≠ encode i) :
    step s = .next ((s.takeTurn.setInputs rest).respond okayWrite).reservedCommand := by
  obtain ⟨why, hdecode⟩ := exists_decode_eq_error hw
  rw [step_txn hturn hreset hin, transact_write_of_regAt _ w (r := .cmd) rfl]
  exact commandWrite_of_error _ hdecode

/-- Settles O5: BUSY chooses between the two effects. -/
theorem reservedWordsNeverExecute : Obligations.ReservedWordsNeverExecute := by
  intro s rest w hturn hreset hin hw
  rw [step_reservedWord hturn hreset hin hw]
  rcases reservedCommand_cases ((s.takeTurn.setInputs rest).respond okayWrite) with ⟨hbusy, h⟩ | ⟨hidle, h⟩
  · rw [h]
    exact ⟨fun hidle => absurd hbusy (by simp [hidle]), fun _ => rfl⟩
  · rw [h]
    exact ⟨fun _ => rfl, fun hbusy => absurd hidle (by simp [hbusy])⟩

/-! ### The alphabet and its reverse table (R62 to R65)

Both tables are described by one relation on numbers, so that each is the other's inverse. -/

/-- Code `c` stands in row `k` of the table of R62, range by range. -/
def InTable (c k : Nat) : Prop :=
  (k < 26 ∧ c = 0x41 + k) ∨ (26 ≤ k ∧ k < 52 ∧ c = 0x61 + (k - 26)) ∨ (52 ≤ k ∧ k < 62 ∧ c = 0x30 + (k - 52)) ∨
  (k = 62 ∧ c = 0x2B) ∨ (k = 63 ∧ c = 0x2F)

theorem alph_eq_iff_inTable {v : Sym} {c : Byte} : alph v = c ↔ InTable c.toNat v.toNat := by
  unfold alph InTable
  split_ifs <;> bv_omega

theorem rev_eq_symbol_iff_inTable {c : Byte} {v : Sym} : rev c = .symbol v ↔ InTable c.toNat v.toNat := by
  unfold rev InTable
  split_ifs <;> simp only [RevClass.symbol.injEq, false_iff, pad] at * <;> bv_omega

/-- ALPH and REV are inverse (R65). -/
theorem rev_eq_symbol_iff {c : Byte} {v : Sym} : rev c = .symbol v ↔ alph v = c :=
  rev_eq_symbol_iff_inTable.trans alph_eq_iff_inTable.symm

@[simp] theorem rev_alph (v : Sym) : rev (alph v) = .symbol v := rev_eq_symbol_iff.2 rfl

/-- The padding symbol is disjoint from the alphabet (R63). -/
theorem alph_ne_pad (v : Sym) : alph v ≠ pad := by
  intro h
  have hrev := rev_alph v
  rw [h, rev_pad] at hrev
  cases hrev

theorem rev_eq_padmark_iff {c : Byte} : rev c = .padmark ↔ c = pad := by
  rcases rev_cases c with ⟨v, hsymbol⟩ | ⟨hpadmark, hpad⟩ | hinvalid
  · have hne : c ≠ pad := rev_eq_symbol_iff.1 hsymbol ▸ alph_ne_pad v
    simp [hsymbol, hne]
  · exact iff_of_true hpadmark hpad
  · have hne : c ≠ pad := by
      rintro rfl
      cases hinvalid
    simp [hinvalid, hne]

/-- INVALID is what is neither of the other two classes (R64). -/
theorem rev_eq_invalid_iff {c : Byte} : rev c = .invalid ↔ c ≠ pad ∧ ∀ v, alph v ≠ c := by
  simp only [ne_eq, ← rev_eq_padmark_iff, ← rev_eq_symbol_iff]
  cases rev c <;> simp

/-- Settles O20: the string is compared with ALPH at the 64 values. -/
theorem alphabetIsTheStandardOne : Obligations.AlphabetIsTheStandardOne :=
  ⟨by decide, rfl, alph_ne_pad⟩

/-- Settles O21, class by class. -/
theorem alphabetAndReverseTableAreInverse : Obligations.AlphabetAndReverseTableAreInverse :=
  ⟨rev_alph, fun _ _ => rev_eq_symbol_iff.1, fun _ => rev_eq_padmark_iff, fun _ => rev_eq_invalid_iff⟩

/-! ### WAIT (R66) -/

/-- A 32-bit READ of a register gives its value (R37). -/
theorem performRead_of_regAt {off : Offset} {r : Reg} (s : State) (h : regAt off = some r) :
    s.performRead off .four = s.respond (okayRead (s.readReg r)) := by
  simp [State.performRead, target_of_regAt s.cfg h]

/-- The POLL loop on a register is left at once when its masked value is the one waited for (R66). -/
theorem pollOnce_of_readReg_and_eq {s : State} {off : Offset} {r : Reg} {mask val : Word} (rest : List Input)
    (hoff : regAt off = some r) (hval : s.readReg r &&& mask = val) :
    s.pollOnce off mask val rest = (s.respond (okayRead (s.readReg r))).setInputs rest := by
  simp [State.pollOnce, performRead_of_regAt s hoff, State.lastRdata, okayRead, hval]

/-- BUSY is bit 0 of STATUS (R19). -/
theorem readReg_status_and_one_of_idle {s : State} (h : s.status.busy = false) : s.readReg .status &&& 1 = 0 := by
  obtain ⟨hbusy, -⟩ := s.status.toWord_flags
  calc s.readReg .status &&& 1 = (BitVec.ofBool (s.status.toWord.getLsbD 0)).setWidth 32 :=
        BitVec.and_one_eq_setWidth_ofBool_getLsbD
    _ = 0 := by rw [hbusy, h]; rfl

/-- A host turn that brings WAIT while BUSY = 0 leaves the loop. -/
theorem step_wait_idle {s : State} {rest : List Input} (hturn : s.turn = .host) (hreset : s.resetAsserted = false)
    (hidle : s.status.busy = false) (hin : s.inputs = wait :: rest) :
    step s = .next ((s.takeTurn.respond (okayRead (s.readReg .status))).setInputs rest) := by
  have hpoll := pollOnce_of_readReg_and_eq (s := s.takeTurn) (off := 0x010) rest rfl
    (readReg_status_and_one_of_idle hidle)
  rw [step_host hturn, hostTurn_poll (s := s.takeTurn) hin, takeTurn_resetAsserted, hreset, hpoll]
  rfl

/-- An engine turn while BUSY = 1 completes the operation (R71). -/
theorem step_engine_busy {s : State} (hturn : s.turn = .engine) (hbusy : s.status.busy = true) :
    step s = .next s.takeTurn.complete := by
  rw [step_engine hturn, engineTurn_busy (s := s.takeTurn) hbusy]

/-- Settles O60: the engine's turn, which ends the operation, then the host's, whose READ of STATUS finds BUSY = 0. -/
theorem waitEndsWhenTheOperationDoes : Obligations.WaitEndsWhenTheOperationDoes := by
  intro s rest hbusy hreset hsched hin
  have hengine : step s = .next s.takeTurn.complete :=
    step_engine_busy (by simp [State.turn, hsched, hbusy]) hbusy
  obtain ⟨-, -, -, -, -, -, hreset', hin', hsched', -⟩ := complete_frame s.takeTurn
  have hturn : s.takeTurn.complete.turn = .host := by simp [State.turn, hsched', hsched]
  have hhost := step_wait_idle hturn (hreset'.trans hreset) (complete_status_busy _) (hin'.trans hin)
  exact ⟨_, (run_succ 1 hengine).trans (run_succ 0 hhost), complete_status_busy _, rfl, rfl⟩

end Sys2Proof.Machine
end

section
/-! PROOFS for 40_commands.md: each command at the CMD write and the engine's completion step, with everything they change and
nothing else. -/

namespace Sys2Proof.Machine

/-! ### A command word at the port (R67) -/

theorem commandWrite_of_ok {w : Word} {i : Instr} (s : State) (h : decode w = .ok i) : commandWrite w s = exec i s := by
  simp [commandWrite, h]

/-- A host turn that writes a command word to CMD: answered OKAY, and the command runs. -/
theorem step_commandWord {s : State} {rest : List Input} {w : Word} {i : Instr} (hturn : s.turn = .host)
    (hreset : s.resetAsserted = false) (hin : s.inputs = .txn (.write 0x00C .four w) :: rest)
    (hw : decode w = .ok i) : step s = exec i ((s.takeTurn.setInputs rest).respond okayWrite) := by
  rw [step_txn hturn hreset hin, transact_write_of_regAt _ w (r := .cmd) rfl]
  exact commandWrite_of_ok _ hw

/-- Settles O4: the step is the transaction, the transaction the write to CMD, and that is `exec`. -/
theorem stepRunsDecodedCommand : Obligations.StepRunsDecodedCommand :=
  fun _ _ _ _ => step_commandWord

/-- Settles O8: NOP at the port is NOP run on the state with the input taken and the response given. -/
theorem nopHasNoEffect : Obligations.NopHasNoEffect :=
  ⟨exec_next .nop, fun _ _ hturn hreset hin => step_commandWord hturn hreset hin (decode_encode .nop), rfl, rfl⟩

/-! ### CLEAR (R75) -/

@[simp] theorem Status.busy_reset : Status.reset.busy = false := rfl
@[simp] theorem Status.toWord_reset : Status.reset.toWord = 0 := rfl
@[simp] theorem ResultInfo.toWord_reset : ResultInfo.reset.toWord = 0 := rfl

/-- STATUS 0 requests no interrupt (R101). -/
@[simp] theorem irq_clearStatus (s : State) : s.clearStatus.irq = false := rfl

theorem exec_clear_of_idle {s : State} (h : s.status.busy = false) : exec .clear s = .next s.clearStatus := by
  rw [exec_next, h]
  rfl

theorem exec_clear_of_busy {s : State} (h : s.status.busy = true) : exec .clear s = .next s.abort.clearStatus := by
  rw [exec_next, h]
  rfl

/-- An abort leaves each byte old or new (R121). -/
theorem byteAt_abort_oldOrNew (s : State) (i : Nat) :
    s.abort.byteAt .outMem i = s.byteAt .outMem i ∨ s.pendingOut[i]? = some (s.abort.byteAt .outMem i) := by
  rw [byteAt_abort]
  split
  · exact racyByte_oldOrNew s _ i
  · exact .inl rfl

/-- Settles O9: an idle CLEAR is `clearStatus`; a busy one aborts first, and an abort touches only OUT_MEM and the choices. -/
theorem clearZeroesStatusAndResults : Obligations.ClearZeroesStatusAndResults := by
  intro s
  cases hbusy : s.status.busy with
  | false =>
    refine ⟨_, exec_clear_of_idle hbusy, ?_⟩
    simp [State.readReg]
  | true =>
    refine ⟨_, exec_clear_of_busy hbusy, ?_⟩
    have hbytes : ∀ i, s.abort.clearStatus.byteAt .outMem i = s.byteAt .outMem i ∨
        s.pendingOut[i]? = some (s.abort.clearStatus.byteAt .outMem i) := byteAt_abort_oldOrNew s
    simpa [State.readReg] using hbytes

/-! ### Acceptance, rejection, drop (R68 to R70) -/

theorem startCommand_of_le {s : State} (op : Op) (hidle : s.status.busy = false) (hlen : s.inLen.toNat ≤ s.cfg.inCap) :
    s.startCommand op = s.accept op := by
  simp [State.startCommand, hidle, hlen]

theorem startCommand_of_gt {s : State} (op : Op) (hidle : s.status.busy = false) (hlen : s.cfg.inCap < s.inLen.toNat) :
    s.startCommand op = s.rejectLength op := by
  simp [State.startCommand, hidle, hlen]

theorem startCommand_of_busy {s : State} (op : Op) (hbusy : s.status.busy = true) : s.startCommand op = s.drop := by
  simp [State.startCommand, hbusy]

theorem reservedCommand_of_idle {s : State} (hidle : s.status.busy = false) : s.reservedCommand = s.rejectCommand := by
  simp [State.reservedCommand, hidle]

theorem reservedCommand_of_busy {s : State} (hbusy : s.status.busy = true) : s.reservedCommand = s.drop := by
  simp [State.reservedCommand, hbusy]

theorem exec_encode (s : State) : exec .encode s = .next (s.startCommand .encode) := exec_next .encode s
theorem exec_decode (s : State) : exec .decode s = .next (s.startCommand .decode) := exec_next .decode s

/-- Settles O11: idle with a legal length, ENCODE and DECODE are accepted. -/
theorem acceptanceStartsTheOperation : Obligations.AcceptanceStartsTheOperation := by
  intro s hidle hlen
  rw [exec_encode, exec_decode, startCommand_of_le .encode hidle hlen, startCommand_of_le .decode hidle hlen]
  exact ⟨rfl, rfl⟩

/-- Settles O12: idle, a length above IN_CAP rejects ENCODE and DECODE, and a reserved word is rejected at any length. -/
theorem rejectionRecordsTheError : Obligations.RejectionRecordsTheError := by
  intro s hidle
  refine ⟨fun hlen => ?_, fun w hw => ?_⟩
  · rw [exec_encode, exec_decode, startCommand_of_gt .encode hidle hlen, startCommand_of_gt .decode hidle hlen]
    exact ⟨rfl, rfl⟩
  · obtain ⟨why, hreserved⟩ := exists_decode_eq_error hw
    rw [commandWrite_of_error s hreserved, reservedCommand_of_idle hidle]
    rfl

/-- While BUSY = 1 every word but those of NOP and CLEAR is dropped (R70). -/
theorem commandWrite_of_busy {s : State} {w : Word} (hbusy : s.status.busy = true) (hnop : w ≠ encode .nop)
    (hclear : w ≠ encode .clear) : commandWrite w s = .next s.drop := by
  cases hd : decode w with
  | error why => rw [commandWrite_of_error s hd, reservedCommand_of_busy hbusy]
  | ok i =>
    rw [commandWrite_of_ok s hd]
    cases i with
    | nop => exact absurd (encode_of_decode hd).symm hnop
    | clear => exact absurd (encode_of_decode hd).symm hclear
    | encode => rw [exec_encode, startCommand_of_busy .encode hbusy]
    | decode => rw [exec_decode, startCommand_of_busy .decode hbusy]

/-- A completion neither reads nor changes HAZ. -/
theorem complete_drop (s : State) : s.drop.complete = s.complete.drop := by
  rcases complete_cases s with ⟨hop, -⟩ | ⟨hop, stop, hdec, h⟩ | ⟨hop, -, j, hdec, h⟩
  · rw [complete_of_encode hop, complete_of_encode (by exact hop)]; rfl
  · rw [h, complete_of_decode_ok (by exact hop) (by exact hdec)]; rfl
  · rw [h, complete_of_decode_invalid (by exact hop) (by exact hdec)]; rfl

/-- Settles O13: the next state is `drop`, and a drop commutes with the completion. -/
theorem busyCommandIsDropped : Obligations.BusyCommandIsDropped := by
  intro s hbusy
  refine ⟨s.drop, rfl, ?_, ?_, fun w hnop hclear => ?_, ?_⟩
  · rw [exec_encode, startCommand_of_busy .encode hbusy]
  · rw [exec_decode, startCommand_of_busy .decode hbusy]
  · rw [transact_write_of_regAt s w (r := .cmd) rfl]
    exact commandWrite_of_busy (s := s.respond okayWrite) hbusy hnop hclear
  · rw [engineTurn_busy hbusy, engineTurn_busy (s := s.drop) hbusy]
    exact complete_drop s

/-! ### The engine's step (R71) -/

theorem complete_done_or_err (s : State) : s.complete.status.done = true ∨ s.complete.status.err = true := by
  rcases complete_cases s with ⟨-, h⟩ | ⟨-, _, -, h⟩ | ⟨-, -, _, -, h⟩ <;> rw [h]
  · exact .inl rfl
  · exact .inl rfl
  · exact .inr rfl

/-- Settles O6: BUSY chooses between the completion and no effect. -/
theorem engineStepsExactlyWhenBusy : Obligations.EngineStepsExactlyWhenBusy := by
  intro s hturn
  refine ⟨_, step_engine hturn, fun hbusy => ?_, engineTurn_idle (s := s.takeTurn)⟩
  rw [engineTurn_busy (s := s.takeTurn) hbusy]
  exact ⟨complete_status_busy _, complete_done_or_err _⟩

/-- The engine's turn while BUSY = 1, with the turn taken after the completion. -/
theorem step_completes {s : State} (hturn : s.turn = .engine) (hbusy : s.status.busy = true) :
    step s = .next s.complete.takeTurn := by
  rw [step_engine_busy hturn hbusy, complete_takeTurn]

/-- What every completion leaves as it was, of what the host or the engine reads. -/
theorem complete_keeps (s : State) :
    s.complete.inLen = s.inLen ∧ s.complete.irqEn = s.irqEn ∧ s.complete.cfg = s.cfg ∧ s.complete.opL = s.opL ∧
    s.complete.nL = s.nL ∧ s.complete.epoch = s.epoch ∧ s.complete.inputs = s.inputs := by
  obtain ⟨hcfg, hlen, hirq, hop, hn, -, -, hin, -, -, hepoch, -⟩ := complete_frame s
  exact ⟨hlen, hirq, hcfg, hop, hn, hepoch, hin⟩

theorem pendingOut_of_encode {s : State} (hop : s.opL = .encode) : s.pendingOut = encodeBytes s.engineData := by
  simp [State.pendingOut, hop]

theorem pendingOut_of_decode_ok {s : State} {out : List Byte} {stop : Nat} (hop : s.opL = .decode)
    (hdec : decodeChars s.engineData = .ok out stop) : s.pendingOut = out := by
  simp [State.pendingOut, hop, hdec]

/-- Two bits hold the pad count (R84). -/
theorem ResultInfo.toWord_ofEncode {pads : Nat} (h : pads < 4) :
    (ResultInfo.ofEncode pads).toWord = BitVec.ofNat 32 pads := by
  interval_cases pads <;> rfl

/-- PAD_FOUND is bit 16 and DEC_TAIL bits 9:8 (R28). -/
theorem ResultInfo.toWord_ofDecode (n stop : Nat) :
    (ResultInfo.ofDecode n stop).toWord =
      (if stop < n then (1 : Word) else 0) <<< 16 ||| BitVec.ofNat 32 (stop % 4) <<< 8 := by
  have htail : stop % 4 < 4 := Nat.mod_lt _ (by decide)
  unfold ResultInfo.ofDecode
  generalize stop % 4 = tail at htail
  by_cases h : stop < n <;> simp only [h, decide_true, decide_false, if_true, if_false] <;> interval_cases tail <;> rfl

/-- The result registers and STATUS after an ENCODE (R71, R87); the bytes are `byteAt_complete`'s. -/
theorem registers_complete_of_encode {s : State} (hop : s.opL = .encode) :
    s.complete.outLen = BitVec.ofNat 32 (4 * ((s.nL + 2) / 3)) ∧ s.complete.consumed = BitVec.ofNat 32 s.nL ∧
    s.complete.readReg .resultInfo = BitVec.ofNat 32 ((3 - s.nL % 3) % 3) ∧ s.complete.errPos = s.errPos ∧
    s.complete.status = s.status.completed := by
  have hlen : (encodeBytes s.engineData).length = 4 * ((s.nL + 2) / 3) := by
    rw [length_encodeBytes, State.engineData, length_memRead]
  have hpads : encPad s.nL < 4 := by unfold encPad; omega
  rw [complete_of_encode hop]
  exact ⟨congrArg (BitVec.ofNat 32) hlen, rfl, ResultInfo.toWord_ofEncode hpads, rfl, rfl⟩

/-- The result registers and STATUS after a DECODE that meets no invalid character (R71, R98). -/
theorem registers_complete_of_decode_ok {s : State} {out : List Byte} {stop : Nat} (hop : s.opL = .decode)
    (hdec : decodeChars s.engineData = .ok out stop) :
    s.complete.outLen = BitVec.ofNat 32 out.length ∧ s.complete.consumed = BitVec.ofNat 32 stop ∧
    s.complete.readReg .resultInfo =
      (if stop < s.nL then (1 : Word) else 0) <<< 16 ||| BitVec.ofNat 32 (stop % 4) <<< 8 ∧
    s.complete.errPos = s.errPos ∧ s.complete.status = s.status.completed := by
  rw [complete_of_decode_ok hop hdec]
  exact ⟨rfl, rfl, ResultInfo.toWord_ofDecode s.nL stop, rfl, rfl⟩

/-! ### Under the invariant no length is narrowed -/

theorem inCap_le_of_wf {c : Config} (h : c.wf = true) : c.inCap ≤ 0x10000 := by
  simp only [Config.wf, Bool.and_eq_true, decide_eq_true_eq] at h
  obtain ⟨⟨⟨⟨_, hcap⟩, _⟩, _⟩, _⟩ := h
  exact hcap

theorem toNat_ofNat_eq_of_le {n : Nat} (h : n ≤ 0x20000) : (BitVec.ofNat 32 n).toNat = n := by
  rw [BitVec.toNat_ofNat]
  omega

namespace State.Inv
variable {s : State}

theorem nL_le (h : s.Inv) (hbusy : s.status.busy = true) : s.nL ≤ 0x10000 :=
  (h.lenLegal hbusy).trans (inCap_le_of_wf h.cfgLegal)

/-- While an operation runs the result registers are 0, as its acceptance left them (R24, R68). -/
theorem results_of_busy (h : s.Inv) (hbusy : s.status.busy = true) :
    s.outLen = 0 ∧ s.errPos = 0 ∧ s.consumed = 0 ∧ s.resultInfo = ResultInfo.reset := by
  obtain ⟨hdone, -, hcode⟩ := h.statusInv.busyIsClean hbusy
  obtain ⟨hout, hcons, hinfo⟩ := h.noResult hdone
  exact ⟨hout, h.noErrPos (by simp [hcode]), hcons, hinfo⟩

end State.Inv

/-- Settles O14: the pending bytes are the encoded text, and the registers are narrowed without loss. -/
theorem encodeCompletionPublishesTheText : Obligations.EncodeCompletionPublishesTheText := by
  intro s hinv hturn hbusy hop
  have hn := hinv.nL_le hbusy
  obtain ⟨hout, hcons, hinfo, herr, hstatus⟩ := registers_complete_of_encode hop
  obtain ⟨-, hzero, -⟩ := hinv.results_of_busy hbusy
  refine ⟨_, step_completes hturn hbusy, fun i => ?_, byteAt_inMem_complete s, ?_, ?_, hinfo, herr.trans hzero, hstatus,
    complete_keeps s⟩
  · exact pendingOut_of_encode hop ▸ byteAt_complete s i
  · rw [takeTurn_outLen, hout, toNat_ofNat_eq_of_le (by omega)]
  · rw [takeTurn_consumed, hcons, toNat_ofNat_eq_of_le (by omega)]

/-- Settles O15: the pending bytes are the decoded ones, no more than the characters read. -/
theorem decodeCompletionPublishesTheBytes : Obligations.DecodeCompletionPublishesTheBytes := by
  intro s out stop hinv hturn hbusy hop hdec
  have hn := hinv.nL_le hbusy
  have hlen : out.length ≤ s.nL := by simpa using length_le_of_decodeChars_ok hdec
  have hstop : stop ≤ s.nL := by simpa using stop_le_of_decodeChars_ok hdec
  obtain ⟨hout, hcons, hinfo, herr, hstatus⟩ := registers_complete_of_decode_ok hop hdec
  obtain ⟨-, hzero, -⟩ := hinv.results_of_busy hbusy
  refine ⟨_, step_completes hturn hbusy, fun i => ?_, byteAt_inMem_complete s, ?_, ?_, hinfo, herr.trans hzero, hstatus,
    complete_keeps s⟩
  · exact pendingOut_of_decode_ok hop hdec ▸ byteAt_complete s i
  · rw [takeTurn_outLen, hout, toNat_ofNat_eq_of_le (by omega)]
  · rw [takeTurn_consumed, hcons, toNat_ofNat_eq_of_le (by omega)]

/-- Settles O16: a failed completion writes ERR_POS and STATUS alone, and the acceptance left the rest at 0. -/
theorem failedDecodeReturnsNothing : Obligations.FailedDecodeReturnsNothing := by
  intro s j hinv hturn hbusy hop hdec
  have hn := hinv.nL_le hbusy
  have hj : j < s.nL := by simpa using lt_length_of_decodeChars_invalid hdec
  obtain ⟨hdone, -, -⟩ := hinv.statusInv.busyIsClean hbusy
  obtain ⟨hout, -, hcons, hinfo⟩ := hinv.results_of_busy hbusy
  have hstep := step_completes hturn hbusy
  rw [complete_of_decode_invalid hop hdec] at hstep
  refine ⟨_, hstep, rfl, rfl, fun _ => rfl, hout, hcons, congrArg ResultInfo.toWord hinfo,
    toNat_ofNat_eq_of_le (by omega), ?_, rfl, rfl, rfl, rfl, rfl, rfl, rfl⟩
  simp [Status.failed, hdone]

/-! ### From the CMD write to the completion (R87, R98) -/

/-- An operation just accepted, as the engine's turn finds it. -/
def State.started (s : State) (op : Op) (rest : List Turn) : State := { s.accept op with sched := rest }

theorem step_accept (s : State) (op : Op) (rest : List Turn) :
    step { s.accept op with sched := .engine :: rest } = .next (s.started op rest).complete :=
  step_engine_busy rfl rfl

theorem Status.toWord_encode_completed (st : Status) :
    (st.accepted .encode).completed.toWord = if st.haz then 0x0000000A else 0x00000002 := by
  simp only [Status.accepted, Status.completed]
  cases st.haz <;> rfl

theorem Status.toWord_decode_completed (st : Status) :
    (st.accepted .decode).completed.toWord = if st.haz then 0x0000010A else 0x00000102 := by
  simp only [Status.accepted, Status.completed]
  cases st.haz <;> rfl

theorem Status.toWord_decode_failed (st : Status) :
    (st.accepted .decode).failed.toWord = if st.haz then 0x0000011C else 0x00000114 := by
  simp only [Status.accepted, Status.failed]
  cases st.haz <;> rfl

/-- Settles O17: the accepted state runs an ENCODE of IN_LEN bytes with every result register at 0. -/
theorem encodeRunsToItsResult : Obligations.EncodeRunsToItsResult := by
  intro s rest _ hidle hlen
  have hexec : exec .encode s = .next (s.accept .encode) := by rw [exec_encode, startCommand_of_le _ hidle hlen]
  have hop : (s.started .encode rest).opL = .encode := rfl
  obtain ⟨hout, hcons, hinfo, herr, hstatus⟩ := registers_complete_of_encode hop
  refine ⟨_, _, hexec, rfl, step_accept s .encode rest, fun i => ?_, byteAt_inMem_complete _, hout, ?_, hinfo, herr, ?_,
    complete_inLen _, congrArg IrqEn.toWord (complete_irqEn _)⟩
  · exact pendingOut_of_encode hop ▸ byteAt_complete (s.started .encode rest) i
  · exact hcons.trans ((BitVec.ofNat_toNat 32 s.inLen).trans (BitVec.setWidth_eq s.inLen))
  · exact (congrArg Status.toWord hstatus).trans s.status.toWord_encode_completed

/-- Settles O18: the accepted state runs a DECODE of IN_LEN characters, which ends one way or the other. -/
theorem decodeRunsToItsResult : Obligations.DecodeRunsToItsResult := by
  intro s rest _ hidle hlen
  have hexec : exec .decode s = .next (s.accept .decode) := by rw [exec_decode, startCommand_of_le _ hidle hlen]
  have hop : (s.started .decode rest).opL = .decode := rfl
  refine ⟨_, _, hexec, rfl, step_accept s .decode rest, byteAt_inMem_complete _, complete_inLen _,
    congrArg IrqEn.toWord (complete_irqEn _), ?_⟩
  cases hdec : decodeChars (s.memRead .inMem 0 s.inLen.toNat) with
  | ok out stop =>
    obtain ⟨hout, hcons, hinfo, herr, hstatus⟩ :=
      registers_complete_of_decode_ok (s := s.started .decode rest) hop hdec
    refine ⟨fun i => ?_, hout, hcons, hinfo, herr, ?_⟩
    · exact pendingOut_of_decode_ok (s := s.started .decode rest) hop hdec ▸ byteAt_complete (s.started .decode rest) i
    · exact (congrArg Status.toWord hstatus).trans s.status.toWord_decode_completed
  | invalidSymbol j =>
    rw [complete_of_decode_invalid (s := s.started .decode rest) hop hdec]
    exact ⟨fun _ => rfl, rfl, rfl, ResultInfo.toWord_reset, rfl, s.status.toWord_decode_failed⟩

end Sys2Proof.Machine
end

section
/-! PROOFS for 41_encoder.md: the packer's slices, the character at each place of the text, and where the padding stands. -/

namespace Sys2Proof.Machine

/-! ### The packer (R78, R79) -/

theorem slice_eq_extractLsb' (acc : Acc) (k : Nat) : slice acc k = acc.extractLsb' (18 - 6 * k) 6 := by
  apply BitVec.eq_of_getLsbD_eq
  intro j hj
  rw [getLsbD_slice _ _ _ hj, BitVec.getLsbD_extractLsb']
  simp [hj]

/-- The four slices of three packed bytes (R79): a slice inside one byte is a field of it, and one across two bytes joins the
low bits of the first to the high bits of the second. -/
theorem slices_packBytes (b0 b1 b2 : Byte) :
    slice (packBytes b0 b1 b2) 0 = b0.extractLsb' 2 6 ∧
    slice (packBytes b0 b1 b2) 1 = b0.extractLsb' 0 2 ++ b1.extractLsb' 4 4 ∧
    slice (packBytes b0 b1 b2) 2 = b1.extractLsb' 0 4 ++ b2.extractLsb' 6 2 ∧
    slice (packBytes b0 b1 b2) 3 = b2.extractLsb' 0 6 := by
  refine ⟨?_, ?_, ?_, ?_⟩ <;> apply BitVec.eq_of_getLsbD_eq <;> intro j hj <;>
    rw [getLsbD_slice _ _ _ hj, getLsbD_packBytes]
  · rw [if_neg (by omega), if_neg (by omega), BitVec.getLsbD_extractLsb']
    simp [hj, show 18 + j - 16 = 2 + j by omega]
  · rw [if_neg (by omega), BitVec.getLsbD_append]
    by_cases hlow : j < 4
    · simp [hlow, show 12 + j < 16 by omega, show 12 + j - 8 = 4 + j by omega]
    · simp [hlow, show ¬ 12 + j < 16 by omega, show 12 + j - 16 = j - 4 by omega, show j - 4 < 2 by omega]
  · rw [BitVec.getLsbD_append]
    by_cases hlow : j < 2
    · simp [hlow, show 6 + j < 8 by omega]
    · simp [hlow, show ¬ 6 + j < 8 by omega, show 6 + j < 16 by omega, show 6 + j - 8 = j - 2 by omega,
        show j - 2 < 4 by omega]
  · rw [if_pos (by omega), BitVec.getLsbD_extractLsb']
    simp [hj]

/-- Settles O22: `&&& 0x3F` keeps the low six bits of a shift, and packing puts the bytes side by side. -/
theorem slicesAreBitFieldsOfTheBytes : Obligations.SlicesAreBitFieldsOfTheBytes :=
  ⟨fun acc k _ => slice_eq_extractLsb' acc k, slices_packBytes⟩

/-! ### The groups of a byte list (R77, R78, R82) -/

/-- The count of real bytes in group `g` (R77). -/
def groupSize (b : List Byte) (g : Nat) : Nat := min 3 (b.length - 3 * g)

/-- The accumulator of group `g`, in which a missing byte is 0 (R78). -/
def groupAcc (b : List Byte) (g : Nat) : Acc :=
  packBytes (b[3 * g]?.getD 0) (b[3 * g + 1]?.getD 0) (b[3 * g + 2]?.getD 0)

theorem groupSize_cons_succ (b0 b1 b2 : Byte) (bs : List Byte) (g : Nat) :
    groupSize (b0 :: b1 :: b2 :: bs) (g + 1) = groupSize bs g := by
  simp only [groupSize, List.length_cons]
  omega

theorem groupAcc_cons_succ (b0 b1 b2 : Byte) (bs : List Byte) (g : Nat) :
    groupAcc (b0 :: b1 :: b2 :: bs) (g + 1) = groupAcc bs g := rfl

theorem getElem?_groupChars (r : Nat) (acc : Acc) {k : Nat} (hk : k < 4) :
    (groupChars r acc)[k]? = some (groupChar r acc k) := by
  interval_cases k <;> rfl

/-- R82 by index. -/
theorem getElem?_encodeBytes (b : List Byte) {g k : Nat} (hg : g < (b.length + 2) / 3) (hk : k < 4) :
    (encodeBytes b)[4 * g + k]? = some (groupChar (groupSize b g) (groupAcc b g) k) := by
  induction b using encodeBytes.induct generalizing g with
  | case1 => simp at hg
  | case2 b0 =>
    obtain rfl : g = 0 := by simpa using hg
    simpa [groupSize, groupAcc] using getElem?_groupChars 1 (packBytes b0 0 0) hk
  | case3 b0 b1 =>
    obtain rfl : g = 0 := by simpa using hg
    simpa [groupSize, groupAcc] using getElem?_groupChars 2 (packBytes b0 b1 0) hk
  | case4 b0 b1 b2 bs ih =>
    rw [encodeBytes_group]
    cases g with
    | zero =>
      rw [List.getElem?_append_left (by simpa using hk)]
      simpa [groupSize, groupAcc] using getElem?_groupChars 3 (packBytes b0 b1 b2) hk
    | succ g =>
      have hrest : g < (bs.length + 2) / 3 := by
        simp only [List.length_cons] at hg
        omega
      rw [List.getElem?_append_right (by simp; omega), length_groupChars, show 4 * (g + 1) + k - 4 = 4 * g + k by omega,
        ih hrest, groupSize_cons_succ, groupAcc_cons_succ]

/-- A byte the group lacks lies past the end, where the list already reads 0. -/
theorem ite_groupSize_getD (b : List Byte) (g n : Nat) (hn : n < 3) :
    (if n + 1 ≤ groupSize b g then b[3 * g + n]?.getD 0 else 0) = b[3 * g + n]?.getD 0 := by
  split
  · rfl
  · have hpast : b.length ≤ 3 * g + n := by
      unfold groupSize at *
      omega
    rw [List.getElem?_eq_none hpast, Option.getD_none]

/-- Settles O23: group by group, and the statement's bytes of a group are those of `groupAcc`. -/
theorem encodeGivesEachGroupItsCharacters : Obligations.EncodeGivesEachGroupItsCharacters := by
  refine fun b => ⟨length_encodeBytes b, fun g k hg hk => ?_⟩
  have hacc : packBytes (b[3 * g]?.getD 0) (if 2 ≤ groupSize b g then b[3 * g + 1]?.getD 0 else 0)
      (if 3 ≤ groupSize b g then b[3 * g + 2]?.getD 0 else 0) = groupAcc b g := by
    rw [ite_groupSize_getD b g 1 (by decide), ite_groupSize_getD b g 2 (by decide), groupAcc]
  have hchar := getElem?_encodeBytes b hg hk
  rw [← hacc] at hchar
  exact hchar

/-- Settles O24: the law is proved for R8, by induction on the groups. -/
theorem encodeLengthLaw : Obligations.EncodeLengthLaw := length_encodeBytes

/-! ### Symbols, then padding (R81, R84, R85) -/

/-- The symbol values the encoder maps: of each group, as many slices as it has real bytes and one more (R80, R81). -/
def encodeSyms : List Byte → List Sym
  | [] => []
  | [b0] => [slice (packBytes b0 0 0) 0, slice (packBytes b0 0 0) 1]
  | [b0, b1] => [slice (packBytes b0 b1 0) 0, slice (packBytes b0 b1 0) 1, slice (packBytes b0 b1 0) 2]
  | b0 :: b1 :: b2 :: bs =>
    let acc := packBytes b0 b1 b2
    slice acc 0 :: slice acc 1 :: slice acc 2 :: slice acc 3 :: encodeSyms bs

/-- A full group adds no padding (R84). -/
theorem encPad_add_three (n : Nat) : encPad (n + 3) = encPad n := by
  simp [encPad]

/-- The text is the codes of the symbol values and then the padding, which only the last group has. -/
theorem encodeBytes_eq_syms_append_pads (b : List Byte) :
    encodeBytes b = (encodeSyms b).map alph ++ List.replicate (encPad b.length) pad := by
  induction b using encodeBytes.induct with
  | case1 => rfl
  | case2 b0 => rfl
  | case3 b0 b1 => rfl
  | case4 b0 b1 b2 bs ih =>
    have hpads : encPad (b0 :: b1 :: b2 :: bs).length = encPad bs.length := encPad_add_three bs.length
    rw [encodeBytes_group, ih, hpads]
    rfl

theorem pad_not_mem_map_alph (vs : List Sym) : pad ∉ vs.map alph := by
  simp [alph_ne_pad]

theorem encPad_le_two (n : Nat) : encPad n ≤ 2 := by
  unfold encPad
  omega

/-- Settles O25: the body is the codes of the symbol values, and no code is PAD. -/
theorem encodePaddingCount : Obligations.EncodePaddingCount := by
  refine ⟨fun b => ⟨_, encodeBytes_eq_syms_append_pads b, pad_not_mem_map_alph _⟩, fun n => ?_⟩
  unfold encPad
  omega

/-- Settles O26: before the padding every character is a code, and the padding is two characters at most. -/
theorem encodeAlphabetClosure : Obligations.EncodeAlphabetClosure := by
  intro b
  rw [encodeBytes_eq_syms_append_pads]
  refine ⟨fun c hc => ?_, fun i hi => ?_⟩
  · rcases List.mem_append.1 hc with hsym | hpad
    · obtain ⟨v, -, hv⟩ := List.mem_map.1 hsym
      exact .inl ⟨v, hv.symm⟩
    · exact .inr (List.eq_of_mem_replicate hpad)
  · have hafter : ((encodeSyms b).map alph).length ≤ i := by
      by_contra hbefore
      rw [List.getElem?_append_left (by omega)] at hi
      exact pad_not_mem_map_alph _ (List.mem_of_getElem? hi)
    have hpads := encPad_le_two b.length
    rw [List.length_append, List.length_replicate]
    omega

end Sys2Proof.Machine
end

section
/-! PROOFS for 42_decoder.md: the scan, the unpacker, the round trip, and the source's running-buffer decoder. -/

namespace Sys2Proof.Machine

/-! ### The unpacker (R91, R92) -/

/-- The three byte slices of four packed values: each byte joins the low bits of one value to the high bits of the next. -/
theorem byteSlices_packSyms (v0 v1 v2 v3 : Sym) :
    byteSlice (packSyms v0 v1 v2 v3) 0 = v0 ++ v1.extractLsb' 4 2 ∧
    byteSlice (packSyms v0 v1 v2 v3) 1 = v1.extractLsb' 0 4 ++ v2.extractLsb' 2 4 ∧
    byteSlice (packSyms v0 v1 v2 v3) 2 = v2.extractLsb' 0 2 ++ v3 := by
  refine ⟨?_, ?_, ?_⟩ <;> apply BitVec.eq_of_getLsbD_eq <;> intro j hj <;>
    rw [getLsbD_byteSlice _ _ _ hj, getLsbD_packSyms, BitVec.getLsbD_append]
  · rw [if_neg (by omega), if_neg (by omega)]
    by_cases hlow : j < 2
    · simp [hlow, show 16 + j < 18 by omega, show 16 + j - 12 = 4 + j by omega]
    · simp [hlow, show ¬ 16 + j < 18 by omega, show 16 + j - 18 = j - 2 by omega]
  · rw [if_neg (by omega), if_pos (by omega : 16 - 8 * 1 + j < 18)]
    by_cases hlow : j < 4
    · simp [hlow, show 8 + j < 12 by omega, show 8 + j - 6 = 2 + j by omega]
    · simp [hlow, show ¬ 8 + j < 12 by omega, show 8 + j - 12 = j - 4 by omega, show j - 4 < 4 by omega]
  · rw [if_pos (by omega : 16 - 8 * 2 + j < 12)]
    by_cases hlow : j < 6
    · simp [hlow]
    · simp [hlow, show j - 6 < 2 by omega]

/-- A leftover of two values is a full group whose last two values are 0, cut to one byte (R92). -/
theorem unpackTail_two (v0 v1 : Sym) : unpackTail [v0, v1] = [byteSlice (packSyms v0 v1 0 0) 0] := by
  have hacc : ((v0 ++ v1 : BitVec (6 + 6)).setWidth 24) <<< 12 = packSyms v0 v1 0 0 := by
    apply BitVec.eq_of_getLsbD_eq
    intro j hj
    rw [getLsbD_packSyms, BitVec.getLsbD_shiftLeft, BitVec.getLsbD_setWidth, BitVec.getLsbD_append]
    by_cases hlow : j < 12
    · simp [hlow]
    · simp [hlow, hj, show ¬ j < 6 by omega, show j - 12 < 24 by omega, show j - 12 < 6 ↔ j < 18 by omega,
        show j - 12 - 6 = j - 18 by omega]
  rw [unpackTail, hacc]

/-- A leftover of three values is a full group whose last value is 0, cut to two bytes (R92). -/
theorem unpackTail_three (v0 v1 v2 : Sym) :
    unpackTail [v0, v1, v2] = [byteSlice (packSyms v0 v1 v2 0) 0, byteSlice (packSyms v0 v1 v2 0) 1] := by
  have hacc : ((v0 ++ v1 ++ v2 : BitVec (6 + 6 + 6)).setWidth 24) <<< 6 = packSyms v0 v1 v2 0 := by
    apply BitVec.eq_of_getLsbD_eq
    intro j hj
    rw [getLsbD_packSyms, BitVec.getLsbD_shiftLeft, BitVec.getLsbD_setWidth, BitVec.getLsbD_append,
      BitVec.getLsbD_append]
    by_cases hlow : j < 6
    · simp [hlow]
    · simp [hlow, hj, show j - 6 < 24 by omega, show j - 6 < 6 ↔ j < 12 by omega,
        show j - 12 < 6 ↔ j < 18 by omega, show j - 6 - 6 = j - 12 by omega, show j - 12 - 6 = j - 18 by omega]
  simp only [unpackTail, hacc]

/-- Settles O30: every byte is a slice of a packed group, and the leftover values are a group filled up with 0. -/
theorem unpackedBytesAreBitFields : Obligations.UnpackedBytesAreBitFields := by
  refine ⟨fun v0 v1 v2 v3 vs => ?_, unpack_nil, unpack_one, fun v0 v1 => ?_, fun v0 v1 v2 => ?_⟩
  · obtain ⟨h0, h1, h2⟩ := byteSlices_packSyms v0 v1 v2 v3
    rw [unpack_group, h0, h1, h2]
  · rw [unpack_two, unpackTail_two, (byteSlices_packSyms v0 v1 0 0).1]
  · obtain ⟨h0, h1, -⟩ := byteSlices_packSyms v0 v1 v2 0
    rw [unpack_three, unpackTail_three, h0, h1]

/-! ### The scan (R89, R90) -/

/-- R89 by index. -/
theorem stopIndex_eq_iff {t : List Byte} {n : Nat} : stopIndex t = n ↔
    ((n < t.length ∧ t[n]? = some pad) ∨ n = t.length) ∧ ∀ i < n, t[i]? ≠ some pad := by
  induction t generalizing n with
  | nil => simp [eq_comm]
  | cons c cs ih =>
    rw [stopIndex_cons]
    by_cases hc : c = pad
    · cases n with
      | zero => simp [hc]
      | succ n =>
        rw [Nat.forall_lt_succ_left]
        simp [hc]
    · cases n with
      | zero => simp [hc]
      | succ n =>
        rw [Nat.forall_lt_succ_left]
        simp [hc, ih]

/-- The lowest INVALID index of a list (R90), by index. -/
theorem firstInvalid_eq_some_iff {t : List Byte} {j : Nat} : firstInvalid t = some j ↔
    (t[j]?).map rev = some .invalid ∧ ∀ i < j, (t[i]?).map rev ≠ some .invalid := by
  induction t generalizing j with
  | nil => simp
  | cons c cs ih =>
    rw [firstInvalid_cons]
    by_cases hc : rev c = .invalid
    · cases j with
      | zero => simp [hc]
      | succ j =>
        rw [Nat.forall_lt_succ_left]
        simp [hc]
    · cases j with
      | zero => simp [hc]
      | succ j =>
        rw [Nat.forall_lt_succ_left]
        simp [hc, ih]

/-- The scan of `p`, and so its stop, is not moved by a padding symbol after `p` (R89). -/
theorem stopIndex_append_pad (p x : List Byte) : stopIndex (p ++ pad :: x) = stopIndex p := by
  induction p with
  | nil => rfl
  | cons c cs ih => rw [List.cons_append, stopIndex_cons, stopIndex_cons, ih]

/-- A padding symbol and what follows it have no effect (R89). -/
theorem decodeChars_append_pad (p x : List Byte) : decodeChars (p ++ pad :: x) = decodeChars p := by
  simp only [decodeChars, stopIndex_append_pad, List.take_append_of_le_length (stopIndex_le p)]

/-- Settles O28: both texts decode as what stands before the padding symbol. -/
theorem scanStopsAtFirstPadding : Obligations.ScanStopsAtFirstPadding :=
  ⟨fun _ _ => stopIndex_eq_iff, fun p x y => (decodeChars_append_pad p x).trans (decodeChars_append_pad p y).symm⟩

/-- R90: the index reported is the lowest INVALID one before the stop. -/
theorem decodeChars_eq_invalidSymbol_iff {t : List Byte} {j : Nat} : decodeChars t = .invalidSymbol j ↔
    j < stopIndex t ∧ (t[j]?).map rev = some .invalid ∧ ∀ i < j, (t[i]?).map rev ≠ some .invalid := by
  have hscan : decodeChars t = .invalidSymbol j ↔ firstInvalid (t.take (stopIndex t)) = some j := by
    rcases decodeChars_cases t with ⟨k, hk, hbad⟩ | ⟨hnone, hok⟩
    · simp [hk, hbad]
    · simp [hnone, hok]
  rw [hscan, firstInvalid_eq_some_iff]
  by_cases hj : j < stopIndex t
  · have hbefore : ∀ i < j, (t.take (stopIndex t))[i]? = t[i]? := fun i hi => List.getElem?_take_of_lt (hi.trans hj)
    simp +contextual [hj, hbefore, List.getElem?_take_of_lt hj]
  · simp [hj, List.getElem?_take]

/-- Before the stop there is a character, and it is not the padding symbol (R89). -/
theorem exists_getElem?_of_lt_stopIndex {t : List Byte} {i : Nat} (hi : i < stopIndex t) :
    ∃ c, t[i]? = some c ∧ c ≠ pad := by
  have hlen : i < t.length := hi.trans_le (stopIndex_le t)
  obtain ⟨-, hnopad⟩ := stopIndex_eq_iff.1 (rfl : stopIndex t = stopIndex t)
  exact ⟨t[i], List.getElem?_eq_getElem hlen, fun hc => hnopad i hi (hc ▸ List.getElem?_eq_getElem hlen)⟩

/-- Settles O29: a scanned character is not PAD, so it is a symbol when it is not INVALID. -/
theorem lowestInvalidIndexIsReported : Obligations.LowestInvalidIndexIsReported := by
  refine ⟨fun _ _ => decodeChars_eq_invalidSymbol_iff, fun t hvalid => ⟨fun i hi => ?_, ?_⟩⟩
  · obtain ⟨c, hget, hne⟩ := exists_getElem?_of_lt_stopIndex hi
    rcases rev_cases c with ⟨v, hsymbol⟩ | ⟨-, hpad⟩ | hinvalid
    · exact ⟨v, by simp [hget, hsymbol]⟩
    · exact absurd hpad hne
    · exact absurd (by simp [hget, hinvalid]) (hvalid i hi)
  · rcases decodeChars_cases t with ⟨j, -, hbad⟩ | ⟨-, hok⟩
    · obtain ⟨hj, hinvalid, -⟩ := decodeChars_eq_invalidSymbol_iff.1 hbad
      exact absurd hinvalid (hvalid j hj)
    · exact ⟨_, hok⟩

/-! ### A text as codes of symbol values, and what ends them -/

/-- Every text is the codes of some values, followed by its end, by a padding symbol or by an INVALID character. -/
theorem text_cases (t : List Byte) : ∃ vs : List Sym, t = vs.map alph ∨ (∃ cs, t = vs.map alph ++ pad :: cs) ∨
    ∃ c cs, t = vs.map alph ++ c :: cs ∧ rev c = .invalid := by
  induction t with
  | nil => exact ⟨[], .inl rfl⟩
  | cons c cs ih =>
    rcases rev_cases c with ⟨v, hsymbol⟩ | ⟨-, rfl⟩ | hinvalid
    · obtain rfl := rev_eq_symbol_iff.1 hsymbol
      rcases ih with ⟨vs, rfl | ⟨ds, rfl⟩ | ⟨d, ds, rfl, hd⟩⟩
      · exact ⟨v :: vs, .inl rfl⟩
      · exact ⟨v :: vs, .inr (.inl ⟨ds, rfl⟩)⟩
      · exact ⟨v :: vs, .inr (.inr ⟨d, ds, rfl, hd⟩)⟩
    · exact ⟨[], .inr (.inl ⟨cs, rfl⟩)⟩
    · exact ⟨[], .inr (.inr ⟨c, cs, rfl, hinvalid⟩)⟩

theorem stopIndex_map_alph_append (vs : List Sym) (t : List Byte) :
    stopIndex (vs.map alph ++ t) = vs.length + stopIndex t := by
  induction vs with
  | nil => simp
  | cons v vs ih =>
    rw [List.map_cons, List.cons_append, stopIndex_cons, if_neg (alph_ne_pad v), ih, List.length_cons]
    omega

theorem firstInvalid_map_alph_append (vs : List Sym) (t : List Byte) :
    firstInvalid (vs.map alph ++ t) = (firstInvalid t).map (· + vs.length) := by
  induction vs with
  | nil => simp
  | cons v vs ih =>
    rw [List.map_cons, List.cons_append, firstInvalid_cons, rev_alph, if_neg (by simp), ih, Option.map_map]
    rfl

/-- The validator's values are the ones encoded (R65, R90). -/
theorem filterMap_symbolOf_map_alph (vs : List Sym) : (vs.map alph).filterMap symbolOf = vs := by
  have hsymbol : symbolOf ∘ alph = some := funext fun v => by simp [symbolOf]
  rw [List.filterMap_map, hsymbol, List.filterMap_some]

/-- The codes of values decode to the unpacked values. -/
theorem decodeChars_map_alph (vs : List Sym) : decodeChars (vs.map alph) = .ok (unpack vs) vs.length := by
  have hstop : stopIndex (vs.map alph) = vs.length := by simpa using stopIndex_map_alph_append vs []
  have hvalid : firstInvalid (vs.map alph) = none := by simpa using firstInvalid_map_alph_append vs []
  have hscanned : (vs.map alph).take vs.length = vs.map alph := by simp [List.take_of_length_le]
  simp only [decodeChars, hstop, hscanned, hvalid, filterMap_symbolOf_map_alph]

/-- An INVALID character after the codes of values is the one reported (R90). -/
theorem decodeChars_map_alph_append_invalid (vs : List Sym) {c : Byte} (cs : List Byte) (hc : rev c = .invalid) :
    decodeChars (vs.map alph ++ c :: cs) = .invalidSymbol vs.length := by
  have hne : c ≠ pad := (rev_eq_invalid_iff.1 hc).1
  have hstop : stopIndex (vs.map alph ++ c :: cs) = vs.length + (stopIndex cs + 1) := by
    rw [stopIndex_map_alph_append, stopIndex_cons, if_neg hne]
  have hscanned : (vs.map alph ++ c :: cs).take (vs.length + (stopIndex cs + 1)) =
      vs.map alph ++ c :: cs.take (stopIndex cs) := by
    simp [List.take_append]
  simp only [decodeChars, hstop, hscanned, firstInvalid_map_alph_append, firstInvalid_cons, hc]
  simp

/-- A decode that succeeds has read the codes of some values and unpacked them (R93). -/
theorem exists_syms_of_decodeChars_ok {t out : List Byte} {stop : Nat} (h : decodeChars t = .ok out stop) :
    ∃ vs, out = unpack vs ∧ stop = vs.length := by
  obtain ⟨vs, rfl | ⟨cs, rfl⟩ | ⟨c, cs, rfl, hc⟩⟩ := text_cases t
  · rw [decodeChars_map_alph] at h
    cases h
    exact ⟨vs, rfl, rfl⟩
  · rw [decodeChars_append_pad, decodeChars_map_alph] at h
    cases h
    exact ⟨vs, rfl, rfl⟩
  · rw [decodeChars_map_alph_append_invalid vs cs hc] at h
    cases h

/-- The table of R94, whose entry for a leftover of r values is the bytes r values fill. -/
theorem three_mul_div_four_eq (n : Nat) :
    3 * n / 4 = 3 * (n / 4) + ([0, 0, 1, 2] : List Nat)[n % 4]?.getD 0 := by
  have htail : ∀ r < 4, ([0, 0, 1, 2] : List Nat)[r]?.getD 0 = 3 * r / 4 := by decide
  rw [htail _ (Nat.mod_lt n (by decide))]
  omega

/-- Settles O31: each scanned character gives one value, and n values fill 3n/4 bytes. -/
theorem decodeLengthLaw : Obligations.DecodeLengthLaw := by
  intro t out stop h
  have hstop := stop_le_of_decodeChars_ok h
  obtain ⟨vs, rfl, rfl⟩ := exists_syms_of_decodeChars_ok h
  rw [length_unpack]
  exact ⟨three_mul_div_four_eq vs.length, by omega, hstop⟩

/-! ### The round trip (R95) -/

/-- The slice below the only byte of a group is 0 (R78, R79). -/
theorem slice_two_packBytes_zero (b0 : Byte) : slice (packBytes b0 0 0) 2 = 0 := by
  obtain ⟨-, -, hslice, -⟩ := slices_packBytes b0 0 0
  exact hslice

/-- The slice below the second byte of a group of two is 0 (R78, R79). -/
theorem slice_three_packBytes_zero (b0 b1 : Byte) : slice (packBytes b0 b1 0) 3 = 0 := by
  obtain ⟨-, -, -, hslice⟩ := slices_packBytes b0 b1 0
  exact hslice

/-- Unpacking the encoder's values gives the bytes back: the slices of a group pack to its accumulator, and the values a
short group lacks are 0. -/
theorem unpack_encodeSyms (b : List Byte) : unpack (encodeSyms b) = b := by
  induction b using encodeSyms.induct with
  | case1 => rfl
  | case2 b0 =>
    obtain ⟨h0, -, -⟩ := byteSlices_packBytes b0 0 0
    have hacc := packSyms_slices (packBytes b0 0 0)
    rw [slice_two_packBytes_zero, slice_three_packBytes_zero] at hacc
    rw [encodeSyms, unpack_two, unpackTail_two, hacc, h0]
  | case3 b0 b1 =>
    obtain ⟨h0, h1, -⟩ := byteSlices_packBytes b0 b1 0
    have hacc := packSyms_slices (packBytes b0 b1 0)
    rw [slice_three_packBytes_zero] at hacc
    rw [encodeSyms, unpack_three, unpackTail_three, hacc, h0, h1]
  | case4 b0 b1 b2 bs ih =>
    obtain ⟨h0, h1, h2⟩ := byteSlices_packBytes b0 b1 b2
    rw [encodeSyms, unpack_group, packSyms_slices, h0, h1, h2, ih]

theorem length_encodeSyms (b : List Byte) : (encodeSyms b).length = 4 * ((b.length + 2) / 3) - encPad b.length := by
  have hlen := length_encodeBytes b
  rw [encodeBytes_eq_syms_append_pads, List.length_append, List.length_map, List.length_replicate] at hlen
  omega

/-- The encoder's padding symbols have no effect on the decode (R89). -/
theorem decodeChars_append_replicate_pad (t : List Byte) (n : Nat) :
    decodeChars (t ++ List.replicate n pad) = decodeChars t := by
  cases n with
  | zero => simp
  | succ n => rw [List.replicate_succ, decodeChars_append_pad]

theorem decodeChars_encodeBytes (b : List Byte) :
    decodeChars (encodeBytes b) = .ok b (4 * ((b.length + 2) / 3) - encPad b.length) := by
  rw [encodeBytes_eq_syms_append_pads, decodeChars_append_replicate_pad, decodeChars_map_alph, unpack_encodeSyms,
    length_encodeSyms]

/-- Settles O32. The converse fails at `AB`, whose last value has bits below the byte: it decodes to 0x00, which encodes to
`AA==`. -/
theorem roundTripRestoresTheBytes : Obligations.RoundTripRestoresTheBytes :=
  ⟨fun b => ⟨decodeChars_encodeBytes b, (decodeChars_ok (decodeChars_encodeBytes b)).2.symm⟩,
    [0x41, 0x42], [0x00], 2, by decide, by decide⟩

/-! ### The source's running-buffer decoder (R93) -/

theorem runningDecode_alph_of_length_lt {buf : List Sym} (hbuf : buf.length < 3) (out : List Byte) (i : Nat) (v : Sym)
    (cs : List Byte) : runningDecode buf out i (alph v :: cs) = runningDecode (buf ++ [v]) out (i + 1) cs := by
  rw [runningDecode, rev_alph]
  dsimp only
  split
  · simp at hbuf
  · rfl

theorem runningDecode_alph_flush (v0 v1 v2 v : Sym) (out : List Byte) (i : Nat) (cs : List Byte) :
    runningDecode [v0, v1, v2] out i (alph v :: cs) = runningDecode [] (out ++ unpack [v0, v1, v2, v]) (i + 1) cs := by
  rw [runningDecode, rev_alph]

/-- After the codes of `vs` the bytes flushed and the buffer stand for the unpacked values. -/
theorem exists_runningDecode_map_alph_append (rest : List Byte) : ∀ (vs : List Sym) (out : List Byte) (i : Nat),
    ∃ buf flushed, runningDecode [] out i (vs.map alph ++ rest) = runningDecode buf flushed (i + vs.length) rest ∧
      flushed ++ unpackTail buf = out ++ unpack vs
  | [], out, _ => ⟨[], out, rfl, rfl⟩
  | [v0], out, i => ⟨[v0], out, by simp [runningDecode_alph_of_length_lt], rfl⟩
  | [v0, v1], out, i => ⟨[v0, v1], out, by simp [runningDecode_alph_of_length_lt], rfl⟩
  | [v0, v1, v2], out, i => ⟨[v0, v1, v2], out, by simp [runningDecode_alph_of_length_lt], rfl⟩
  | v0 :: v1 :: v2 :: v3 :: vs, out, i => by
    obtain ⟨buf, flushed, hrun, hbytes⟩ :=
      exists_runningDecode_map_alph_append rest vs (out ++ unpack [v0, v1, v2, v3]) (i + 1 + 1 + 1 + 1)
    refine ⟨buf, flushed, ?_, by simp [hbytes]⟩
    simpa [runningDecode_alph_of_length_lt, runningDecode_alph_flush, Nat.add_right_comm, ← Nat.add_assoc] using hrun

/-- Settles O33: both read the codes of the same values, and stop at the same end, padding symbol or INVALID character. -/
theorem runningBufferDecoderAgrees : Obligations.RunningBufferDecoderAgrees := by
  intro t
  obtain ⟨vs, rfl | ⟨cs, rfl⟩ | ⟨c, cs, rfl, hc⟩⟩ := text_cases t
  · obtain ⟨buf, flushed, hrun, hbytes⟩ := exists_runningDecode_map_alph_append [] vs [] 0
    rw [List.append_nil] at hrun
    simp [hrun, decodeChars_map_alph, runningDecode, hbytes]
  · obtain ⟨buf, flushed, hrun, hbytes⟩ := exists_runningDecode_map_alph_append (pad :: cs) vs [] 0
    simp [hrun, decodeChars_append_pad, decodeChars_map_alph, runningDecode, rev_pad, hbytes]
  · obtain ⟨buf, flushed, hrun, -⟩ := exists_runningDecode_map_alph_append (c :: cs) vs [] 0
    simp [hrun, decodeChars_map_alph_append_invalid vs cs hc, runningDecode, hc]

end Sys2Proof.Machine
end

section
/-! PROOFS for 60_exceptions.md: where a step is stuck, what an idle block ignores, the interrupt output, and a host write that
meets the completion. -/

namespace Sys2Proof.Machine

/-! ### The one stop (R99, R114) -/

theorem step_txn_of_resetAsserted {s : State} {x : Txn} {rest : List Input} (hturn : s.turn = .host)
    (hreset : s.resetAsserted = true) (hin : s.inputs = .txn x :: rest) : step s = .fault .transactionDuringReset := by
  rw [step_host hturn, hostTurn_txn (s := s.takeTurn) hin, takeTurn_resetAsserted, if_pos hreset]

theorem step_poll_of_resetAsserted {s : State} {off : Offset} {mask val : Word} {rest : List Input}
    (hturn : s.turn = .host) (hreset : s.resetAsserted = true) (hin : s.inputs = .poll off mask val :: rest) :
    step s = .fault .transactionDuringReset := by
  rw [step_host hturn, hostTurn_poll (s := s.takeTurn) hin, takeTurn_resetAsserted, if_pos hreset]

/-- A step that answers no next state took a transaction or a POLL while reset was asserted. -/
theorem step_next_or_takes_in_reset (s : State) :
    (∃ t, step s = .next t) ∨
    (s.resetAsserted = true ∧ ((∃ x, s.takes (.txn x)) ∨ ∃ off mask val, s.takes (.poll off mask val))) := by
  cases hturn : s.turn with
  | engine => exact .inl ⟨_, step_engine hturn⟩
  | host =>
    match hin : s.inputs with
    | [] => exact .inl ⟨_, (step_host hturn).trans (hostTurn_nil (s := s.takeTurn) hin)⟩
    | .assertReset :: rest => exact .inl ⟨_, (step_host hturn).trans (hostTurn_assertReset (s := s.takeTurn) hin)⟩
    | .releaseReset :: rest => exact .inl ⟨_, (step_host hturn).trans (hostTurn_releaseReset (s := s.takeTurn) hin)⟩
    | .poll off mask val :: rest =>
      cases hreset : s.resetAsserted with
      | true => exact .inr ⟨rfl, .inr ⟨off, mask, val, hturn, rest, hin⟩⟩
      | false =>
        rw [step_host hturn, hostTurn_poll (s := s.takeTurn) hin, takeTurn_resetAsserted, hreset]
        exact .inl ⟨_, rfl⟩
    | .txn x :: rest =>
      cases hreset : s.resetAsserted with
      | true => exact .inr ⟨rfl, .inl ⟨x, hturn, rest, hin⟩⟩
      | false =>
        rw [step_txn hturn hreset hin]
        exact .inl (transact_next x _)

/-- A transaction or a POLL taken while reset is asserted is the fault. -/
theorem step_of_takes_in_reset {s : State} (hreset : s.resetAsserted = true)
    (htakes : (∃ x, s.takes (.txn x)) ∨ ∃ off mask val, s.takes (.poll off mask val)) :
    step s = .fault .transactionDuringReset := by
  rcases htakes with ⟨x, hturn, rest, hin⟩ | ⟨off, mask, val, hturn, rest, hin⟩
  · exact step_txn_of_resetAsserted hturn hreset hin
  · exact step_poll_of_resetAsserted hturn hreset hin

/-- Settles O57: every step answers a next state or takes a transaction or a POLL in reset, and that is the fault. -/
theorem stuckOnlyByTransactionsDuringReset : Obligations.StuckOnlyByTransactionsDuringReset := by
  intro s
  rcases step_next_or_takes_in_reset s with ⟨t, hnext⟩ | ⟨hreset, htakes⟩
  · refine ⟨⟨fun hfault => ?_, fun ⟨hreset, htakes⟩ => step_of_takes_in_reset hreset htakes⟩, fun r hrefused => ?_⟩
    · rw [hnext] at hfault
      cases hfault
    · rw [hnext] at hrefused
      cases hrefused
  · have hfault := step_of_takes_in_reset hreset htakes
    exact ⟨iff_of_true hfault ⟨hreset, htakes⟩, fun r hrefused => by rw [hfault] at hrefused; cases hrefused⟩

/-! ### The idle block (R113) -/

/-- Settles O7: every effect a step can have but `quiet` needs a running operation, a write or the reset input. -/
theorem idleStateChangesOnlyByWrites : Obligations.IdleStateChangesOnlyByWrites := by
  intro s t h hidle hnoWrite hnoAssert hnoRelease
  cases stepEffect_of_step h with
  | quiet ht => exact ht
  | completes _ hbusy _ => exact absurd hbusy (by simp [hidle])
  | resets htakes _ => exact absurd htakes hnoAssert
  | releases htakes _ => exact absurd htakes hnoRelease
  | setsInLen _ htakes _ _ | setsIrqEn _ htakes _ _ | stores _ _ _ _ htakes _ _ _ _ | drops _ _ _ htakes _ _ _
  | clears htakes _ _ | aborts htakes _ _ | accepts _ _ htakes _ _ _ _ | rejectsLength _ _ htakes _ _ _
  | rejectsCommand _ htakes _ _ _ => exact absurd htakes (hnoWrite _ _ _)

/-! ### The interrupt output (R101) -/

/-- Shifting STATUS down by one sets DONE, ERR and HAZ against their enable bits; IRQ_EN masks all above them. -/
theorem getLsbD_status_and_irqEn (s : State) :
    ((s.readReg .status >>> 1) &&& s.readReg .irqEn).getLsbD 0 = (s.status.done && s.irqEn.doneIe) ∧
    ((s.readReg .status >>> 1) &&& s.readReg .irqEn).getLsbD 1 = (s.status.err && s.irqEn.errIe) ∧
    ((s.readReg .status >>> 1) &&& s.readReg .irqEn).getLsbD 2 = (s.status.haz && s.irqEn.hazIe) ∧
    ∀ j, ((s.readReg .status >>> 1) &&& s.readReg .irqEn).getLsbD (j + 3) = false := by
  obtain ⟨-, hdone, herr, hhaz, -⟩ := s.status.toWord_flags
  obtain ⟨hdoneIe, herrIe, hhazIe, habove⟩ := s.irqEn.getLsbD_toWord
  simp only [State.readReg, BitVec.getLsbD_and, BitVec.getLsbD_ushiftRight, hdone, herr, hhaz, hdoneIe, herrIe, hhazIe,
    habove, Bool.and_false, implies_true, and_self]

/-- A word with no bit above bit 2 is 0 exactly when its bits 0, 1 and 2 are. -/
theorem eq_zero_iff_of_low_bits {w : Word} (habove : ∀ j, w.getLsbD (j + 3) = false) :
    w = 0 ↔ w.getLsbD 0 = false ∧ w.getLsbD 1 = false ∧ w.getLsbD 2 = false := by
  constructor
  · rintro rfl
    exact ⟨rfl, rfl, rfl⟩
  · rintro ⟨hzero, hone, htwo⟩
    apply BitVec.eq_of_getLsbD_eq
    intro j _
    match j with
    | 0 => simpa using hzero
    | 1 => simpa using hone
    | 2 => simpa using htwo
    | j + 3 => simpa using habove j

theorem irq_iff_status_and_irqEn_ne_zero (s : State) :
    s.irq = true ↔ (s.readReg .status >>> 1) &&& s.readReg .irqEn ≠ 0 := by
  obtain ⟨hdone, herr, hhaz, habove⟩ := getLsbD_status_and_irqEn s
  rw [Ne, eq_zero_iff_of_low_bits habove, hdone, herr, hhaz, ← Bool.or_eq_false_iff, ← Bool.or_eq_false_iff,
    ← Bool.or_assoc, Bool.not_eq_false, State.irq]

/-- Settles O47: the words are compared bit by bit; after reset no bit of STATUS is 1. -/
theorem irqIsEnabledStatus : Obligations.IrqIsEnabledStatus :=
  ⟨irq_iff_status_and_irqEn_ne_zero, rfl, fun _ => rfl⟩

/-! ### A host write that meets the completion (R104) -/

/-- A legal WRITE to the IN window while an operation runs is answered OKAY and dropped (R118). -/
theorem transact_write_inWindow_of_busy {s : State} {off : Offset} {size : Size} (w : Word)
    (hbusy : s.status.busy = true) (hlow : 0x10000 ≤ off.toNat) (hhigh : off.toNat < 0x20000)
    (hlegal : ¬ slverrCondition s.cfg off.toNat size.bytes) :
    transact (.write off size w) s = .next (s.respond okayWrite).drop := by
  simp [transact, performWrite, target_inWindow hlow hhigh hlegal, State.writeInWindow, hbusy]

section Meeting
variable {s : State} {rest : List Input} {off : Offset} {size : Size} {w : Word}
  (hbusy : s.status.busy = true) (hreset : s.resetAsserted = false)
  (hin : s.inputs = .txn (.write off size w) :: rest) (hlow : 0x10000 ≤ off.toNat) (hhigh : off.toNat < 0x20000)
  (hlegal : ¬ slverrCondition s.cfg off.toNat size.bytes)
include hbusy hreset hin hlow hhigh hlegal

/-- The host's turn first: the write is dropped, and the operation completes. -/
theorem run_write_then_completion (hsched : s.sched = [.host, .engine]) :
    core.run 2 s = .next ((s.takeTurn.setInputs rest).respond okayWrite).drop.takeTurn.complete := by
  have hwrite : step s = .next ((s.takeTurn.setInputs rest).respond okayWrite).drop := by
    rw [step_txn (by simp [State.turn, hsched]) hreset hin]
    exact transact_write_inWindow_of_busy w hbusy hlow hhigh hlegal
  have hengine := step_engine_busy (s := ((s.takeTurn.setInputs rest).respond okayWrite).drop)
    (by simp [State.turn, hsched]) hbusy
  exact (run_succ 1 hwrite).trans (run_succ 0 hengine)

/-- The engine's turn first: the operation completes, and the write finds BUSY = 0 and is performed. -/
theorem run_completion_then_write (hsched : s.sched = [.engine, .host]) :
    ∃ b, core.run 2 s = .next b ∧
      (∀ k < size.bytes, b.byteAt .inMem (off.toNat - 0x10000 + k) = w.extractLsb' (8 * k) 8) ∧
      b = { s.takeTurn.complete.takeTurn.setInputs rest with inMem := b.inMem, resp := some okayWrite } := by
  have hengine : step s = .next s.takeTurn.complete := step_engine_busy (by simp [State.turn, hsched]) hbusy
  obtain ⟨-, -, -, -, -, -, hreset', hin', hsched', -⟩ := complete_frame s.takeTurn
  have hturn : s.takeTurn.complete.turn = .host := by simp [State.turn, hsched', hsched]
  obtain ⟨b, hwrite, hbytes, -, hb⟩ :=
    inWindowWriteStoresItsBytes (s.takeTurn.complete.takeTurn.setInputs rest) off size w (by simp) hlow hhigh
      (by simpa using hlegal)
  rw [← step_txn hturn (hreset'.trans hreset) (hin'.trans hin)] at hwrite
  exact ⟨b, (run_succ 1 hengine).trans (run_succ 0 hwrite), hbytes, hb⟩

end Meeting

/-- Settles O59: both orders complete the same running ENCODE, and beside it one sets HAZ and the other writes IN_MEM. -/
theorem bothInterleavingsAreAdmitted : Obligations.BothInterleavingsAreAdmitted := by
  intro s rest off size w hbusy hop hreset hin hlow hhigh hlegal
  have hdropped := run_write_then_completion (s := { s with sched := [.host, .engine] })
    hbusy hreset hin hlow hhigh hlegal rfl
  obtain ⟨b, hperformed, hbytes, hb⟩ := run_completion_then_write (s := { s with sched := [.engine, .host] })
    hbusy hreset hin hlow hhigh hlegal rfl
  refine ⟨_, b, hdropped, hperformed, ?_⟩
  generalize b.inMem = written at hb
  subst hb
  rw [complete_of_encode (by exact hop)] at hbytes ⊢
  rw [complete_of_encode (by exact hop)]
  exact ⟨rfl, rfl, rfl, hbytes, rfl, rfl, rfl, rfl, rfl, rfl, rfl, rfl⟩

end Sys2Proof.Machine
end

section
/-! PROOFS for 70_reset_and_hazards.md: the reset input, what a write, a read and an abort do while an operation runs, and the
host that keeps the reset protocol: it is never stuck, and every operation ends. -/

namespace Sys2Proof.Machine

/-! ### The reset input (R114) -/

theorem step_assertReset {s : State} {rest : List Input} (hturn : s.turn = .host)
    (hin : s.inputs = .assertReset :: rest) : step s = .next (s.takeTurn.setInputs rest).assertReset :=
  (step_host hturn).trans (hostTurn_assertReset (s := s.takeTurn) hin)

@[simp] theorem IrqEn.toWord_reset : IrqEn.reset.toWord = 0 := rfl

/-- Settles O35: the next state is `assertReset`, whose STATUS is 0, so the engine has nothing to complete. -/
theorem resetInputResetsEveryRegister : Obligations.ResetInputResetsEveryRegister := by
  intro s rest hturn hin
  refine ⟨_, step_assertReset hturn hin, fun r => ?_, rfl, engineTurn_idle rfl, irqIsEnabledStatus.2.2 _, rfl, rfl, rfl⟩
  cases r with
  | status => exact Status.toWord_reset
  | resultInfo => exact ResultInfo.toWord_reset
  | irqEn => exact IrqEn.toWord_reset
  | _ => rfl

/-! ### The hazards of a running operation (R118, R120, R121) -/

/-- Settles O43: a drop writes STATUS alone, and the operation's input is IN_MEM and N_L. -/
theorem inWindowWriteWhileBusyIsDropped : Obligations.InWindowWriteWhileBusyIsDropped := by
  intro s off size w hbusy hlow hhigh hlegal
  exact ⟨_, transact_write_inWindow_of_busy w hbusy hlow hhigh hlegal, rfl, rfl, byteAt_congr rfl rfl⟩

/-- A legal READ of the OUT window while an operation runs makes one choice a byte (R120). -/
theorem performRead_outWindow_of_busy {s : State} {off : Offset} {size : Size} (hbusy : s.status.busy = true)
    (hlow : 0x20000 ≤ off.toNat) (hlegal : ¬ slverrCondition s.cfg off.toNat size.bytes) :
    s.performRead off size =
      { s.respond (okayRead (wordOfBytes (s.racyRead (off.toNat - 0x20000) size.bytes))) with
        draws := s.draws + size.bytes } := by
  simp [State.performRead, target_outWindow hlow hlegal, hbusy]

/-- The lanes of a racy read on the bus, 0 above the access (R34, R39). -/
theorem extractLsb'_wordOfBytes_racyRead (s : State) (i : Nat) (size : Size) {k : Nat} (hk : k < 4) :
    (wordOfBytes (s.racyRead i size.bytes)).extractLsb' (8 * k) 8 =
      if k < size.bytes then s.racyByte (s.draws + k) (i + k) else 0 := by
  rw [extractLsb'_wordOfBytes _ (by simpa [State.racyRead] using size_bytes_le size) k hk]
  split
  · simp [State.racyRead, *]
  · simp [State.racyRead, Nat.le_of_not_lt ‹_›]

/-- Settles O46: lane k of the data is a racy byte, and a racy byte is old or new. -/
theorem outWindowReadWhileBusyIsOldOrNew : Obligations.OutWindowReadWhileBusyIsOldOrNew := by
  intro s off size hbusy hlow hlegal
  have hread := performRead_outWindow_of_busy hbusy hlow hlegal
  refine ⟨_, _, congrArg Host.Outcome.next hread, rfl, rfl, rfl, rfl, fun k hk => ?_⟩
  rw [extractLsb'_wordOfBytes_racyRead s _ size hk]
  split
  · exact racyByte_oldOrNew s _ _
  · rfl

/-- A failing DECODE writes no byte (R72). -/
theorem pendingOut_of_decode_invalid {s : State} {j : Nat} (hop : s.opL = .decode)
    (hdec : decodeChars s.engineData = .invalidSymbol j) : s.pendingOut = [] := by
  simp [State.pendingOut, hop, hdec]

/-- An abort keeps every byte beyond the abandoned result (R121). -/
theorem byteAt_abort_of_le {s : State} {i : Nat} (h : s.pendingOut.length ≤ i) :
    s.abort.byteAt .outMem i = s.byteAt .outMem i := by
  rw [byteAt_abort, if_neg (Nat.not_lt.2 h)]

/-- Settles O10: the abandoned result of a failing DECODE is empty, and after CLEAR the engine finds BUSY = 0. -/
theorem abortTouchesOnlyTheAbandonedResult : Obligations.AbortTouchesOnlyTheAbandonedResult := by
  intro s hbusy
  refine ⟨_, exec_clear_of_busy hbusy, fun i hi => byteAt_abort_of_le hi, byteAt_congr rfl rfl, ?_, engineTurn_idle rfl⟩
  rintro hop ⟨j, hdec⟩ i
  exact byteAt_abort_of_le (by simp [pendingOut_of_decode_invalid hop hdec])

/-! ### The host that keeps the reset protocol (R114)

No input still to come is a transaction or a POLL that meets reset asserted. A step takes at most the first input and leaves
reset at the level after it, so the rest keeps the protocol. -/

theorem hostWaits_txn (asserted : Bool) (x : Txn) (rest : List Input) :
    hostWaits asserted (.txn x :: rest) = true ↔ asserted = false ∧ hostWaits asserted rest = true := by
  simp [hostWaits]

theorem hostWaits_poll (asserted : Bool) (off : Offset) (mask val : Word) (rest : List Input) :
    hostWaits asserted (.poll off mask val :: rest) = true ↔ asserted = false ∧ hostWaits asserted rest = true := by
  simp [hostWaits]

/-- An obedient host's next input is no transaction and no POLL in reset. -/
theorem resetAsserted_eq_false_of_hostObeys {s : State} (h : s.hostObeys = true)
    (htakes : (∃ x, s.takes (.txn x)) ∨ ∃ off mask val, s.takes (.poll off mask val)) : s.resetAsserted = false := by
  rcases htakes with ⟨x, -, rest, hin⟩ | ⟨off, mask, val, -, rest, hin⟩ <;> rw [State.hostObeys, hin] at h
  · exact ((hostWaits_txn _ _ _).1 h).1
  · exact ((hostWaits_poll _ _ _ _ _).1 h).1

/-- A step from an obedient state leaves an obedient state. -/
theorem hostObeys_of_step {s t : State} (hobeys : s.hostObeys = true) (h : step s = .next t) : t.hostObeys = true := by
  rcases step_cases h with ⟨-, -, rfl⟩ | ⟨-, -, rfl⟩ | ⟨-, -, rfl⟩ | ⟨rest, -, hin, rfl⟩ | ⟨rest, -, hin, rfl⟩ |
    ⟨off, mask, val, rest, -, hin, -, rfl⟩ | ⟨x, rest, -, hin, -, hx⟩
  · obtain ⟨-, -, -, -, -, -, hreset, hinputs, -⟩ := complete_frame s.takeTurn
    rw [State.hostObeys, hreset, hinputs]
    exact hobeys
  · exact hobeys
  · exact hobeys
  · rw [State.hostObeys, hin] at hobeys
    exact hobeys
  · rw [State.hostObeys, hin] at hobeys
    exact hobeys
  · obtain ⟨r, n, inp, hinp, hpoll⟩ := pollOnce_cases s.takeTurn off mask val rest
    rw [hpoll]
    rcases hinp with rfl | rfl
    · exact hobeys
    · rw [State.hostObeys, hin, hostWaits_poll] at hobeys
      exact hobeys.2
  · obtain ⟨-, hreset, hinputs, -⟩ := transact_frame hx
    rw [State.hostObeys, hin, hostWaits_txn] at hobeys
    rw [State.hostObeys, hreset, hinputs]
    exact hobeys.2

/-- The only stop is a transaction or a POLL in reset, so an obedient host is answered. -/
theorem exists_step_of_hostObeys {s : State} (hobeys : s.hostObeys = true) :
    ∃ t, step s = .next t ∧ t.hostObeys = true := by
  rcases step_next_or_takes_in_reset s with ⟨t, ht⟩ | ⟨hreset, htakes⟩
  · exact ⟨t, ht, hostObeys_of_step hobeys ht⟩
  · exact absurd hreset (by simp [resetAsserted_eq_false_of_hostObeys hobeys htakes])

/-- Settles O58, by induction on the number of steps. -/
theorem obedientHostNeverStuck : Obligations.ObedientHostNeverStuck := by
  intro s hobeys k
  induction k generalizing s with
  | zero => exact ⟨s, rfl, hobeys⟩
  | succ k ih =>
    obtain ⟨u, hu, hobeysU⟩ := exists_step_of_hostObeys hobeys
    obtain ⟨t, ht, hobeysT⟩ := ih u hobeysU
    exact ⟨t, (run_succ k hu).trans ht, hobeysT⟩

/-! ### Every operation ends (R125) -/

/-- By induction on the schedule: each step takes one turn off it, and when none is left a busy engine has its turn. -/
theorem exists_run_idle_of_hostObeys (sched : List Turn) : ∀ s : State, s.sched = sched → s.hostObeys = true →
    ∃ k ≤ sched.length + 1, ∃ t, core.run k s = .next t ∧ t.status.busy = false := by
  induction sched with
  | nil =>
    intro s hsched _
    cases hbusy : s.status.busy with
    | false => exact ⟨0, Nat.zero_le _, s, rfl, hbusy⟩
    | true =>
      have hengine : step s = .next s.takeTurn.complete :=
        step_engine_busy (by simp [State.turn, hsched, hbusy]) hbusy
      exact ⟨1, Nat.le_refl _, _, run_succ 0 hengine, complete_status_busy _⟩
  | cons turn sched ih =>
    intro s hsched hobeys
    obtain ⟨u, hu, hobeysU⟩ := exists_step_of_hostObeys hobeys
    obtain ⟨k, hk, t, ht, hidle⟩ := ih u (by rw [step_sched hu, hsched, List.tail_cons]) hobeysU
    exact ⟨k + 1, Nat.succ_le_succ hk, t, (run_succ k hu).trans ht, hidle⟩

/-- Settles O56: BUSY at the start is not needed, for an idle machine has ended before its first step. -/
theorem everyOperationEnds : Obligations.EveryOperationEnds :=
  fun s _ hobeys => exists_run_idle_of_hostObeys s.sched s rfl hobeys

end Sys2Proof.Machine
end
